-- ==== Sys2Proof/Word.lean ====
section
/-! DEFINITION. The widths the spec gives its values: one byte, a timestamp or duration (TS_W = 64, 00_scope.md R8),
a configuration register (10_state.md R33) and an operation word (30_encoding.md R100). -/

namespace Sys2Proof

/-- One byte: of the frame buffer (10_state.md R27) or of a result text (30_encoding.md R103). -/
abbrev Byte := BitVec 8

/-- A timestamp or a duration in nanoseconds, `TS_W` = 64 bits unsigned (00_scope.md R8, R12). -/
abbrev Time := BitVec 64

/-- A configuration register (10_state.md R33). -/
abbrev Reg32 := BitVec 32

/-- An operation word: `op` in bits 79:72, `env` in bits 71:64, `now` in bits 63:0 (30_encoding.md R100). -/
abbrev OpWord := BitVec 80

end Sys2Proof
end

