-- ==== Sys2Proof/Syntax.lean ====
section
/-! DEFINITION. The ten operations of 30_encoding.md R106, one constructor per row of spec/opcode_table.json. Each
carries the two operand fields of the operation word (R100): the environment answers `env` and the sampled time `now`. -/

namespace Sys2Proof

/-- An operation. `env` holds all eight bits of the word's field; which of them an operation names is
`Machine.Operands` (30_encoding.md R102). -/
inductive Instr where
  /-- `FC.INIT`, op 0x00 (43_system_ops.md R212). -/
  | fcInit (env : Byte) (now : Time)
  /-- `FC.EDGE`, op 0x01 (41_frequency_capture.md R141). -/
  | fcEdge (env : Byte) (now : Time)
  /-- `FC.READ`, op 0x02 (41_frequency_capture.md R144). -/
  | fcRead (env : Byte) (now : Time)
  /-- `FC.WRITE`, op 0x03 (43_system_ops.md R218). -/
  | fcWrite (env : Byte) (now : Time)
  /-- `PD.INIT`, op 0x10 (43_system_ops.md R214). -/
  | pdInit (env : Byte) (now : Time)
  /-- `PD.EDGE`, op 0x11 (42_protocol_decoder.md R180). -/
  | pdEdge (env : Byte) (now : Time)
  /-- `PD.READ`, op 0x12 (42_protocol_decoder.md R173). -/
  | pdRead (env : Byte) (now : Time)
  /-- `PD.WRITE`, op 0x13 (43_system_ops.md R219). -/
  | pdWrite (env : Byte) (now : Time)
  /-- `PD.REQ_DONE`, op 0x14 (42_protocol_decoder.md R176). -/
  | pdReqDone (env : Byte) (now : Time)
  /-- `PD.LISTEN_DONE`, op 0x15 (42_protocol_decoder.md R182). -/
  | pdListenDone (env : Byte) (now : Time)
  deriving DecidableEq, Repr

end Sys2Proof
end

