-- ==== Sys2Proof/WellFormed.lean ====
section
/-! DEFINITION. Which operations have a canonical word: the `env` bits an operation does not name are 0
(30_encoding.md R102). A word that is not canonical is still an operation of the block, which ignores those bits. -/

namespace Sys2Proof

/-- The `env` bits an operation names, as a mask (30_encoding.md R102). -/
def Instr.namedEnv : Instr → Byte
  | .fcInit _ _ => 0x07
  | .fcEdge _ _ => 0x00
  | .fcRead _ _ => 0x01
  | .fcWrite _ _ => 0x00
  | .pdInit _ _ => 0x07
  | .pdEdge _ _ => 0x00
  | .pdRead _ _ => 0x00
  | .pdWrite _ _ => 0x00
  | .pdReqDone _ _ => 0x00
  | .pdListenDone _ _ => 0x01

/-- The `env` field of an operation. -/
def Instr.env : Instr → Byte
  | .fcInit env _ => env
  | .fcEdge env _ => env
  | .fcRead env _ => env
  | .fcWrite env _ => env
  | .pdInit env _ => env
  | .pdEdge env _ => env
  | .pdRead env _ => env
  | .pdWrite env _ => env
  | .pdReqDone env _ => env
  | .pdListenDone env _ => env

/-- The sampled time of an operation. -/
def Instr.now : Instr → Time
  | .fcInit _ now => now
  | .fcEdge _ now => now
  | .fcRead _ now => now
  | .fcWrite _ now => now
  | .pdInit _ now => now
  | .pdEdge _ now => now
  | .pdRead _ now => now
  | .pdWrite _ now => now
  | .pdReqDone _ now => now
  | .pdListenDone _ now => now

/-- An operation is well formed when its word is canonical (30_encoding.md R102). -/
abbrev Instr.WellFormed (i : Instr) : Prop := i.env &&& ~~~i.namedEnv = 0

end Sys2Proof
end

