-- ==== Sys2Proof/Decode.lean ====
section
/-! DEFINITION. Decoding and encoding an operation word (30_encoding.md R100, R106, R107): 80 bits, `op` in bits 79:72,
`env` in bits 71:64, `now` in bits 63:0. Decoding is total: every reserved `op` value is rejected by name. -/

namespace Sys2Proof

/-- Why a word is not an operation: its `op` value is reserved (30_encoding.md R107). -/
inductive Reject where
  | reservedOp (op : Byte)
  deriving DecidableEq, Repr

/-- The `op` field, bits 79:72 (30_encoding.md R100). -/
def OpWord.op (w : OpWord) : Byte := w.extractLsb' 72 8

/-- The `env` field, bits 71:64 (30_encoding.md R100). -/
def OpWord.env (w : OpWord) : Byte := w.extractLsb' 64 8

/-- The `now` field, bits 63:0 (30_encoding.md R100). -/
def OpWord.now (w : OpWord) : Time := w.extractLsb' 0 64

/-- The operation table read by code (30_encoding.md R106, R107). -/
def decodeOp (op env : Byte) (now : Time) : Except Reject Instr :=
  match op.toNat with
  | 0x00 => .ok (.fcInit env now)
  | 0x01 => .ok (.fcEdge env now)
  | 0x02 => .ok (.fcRead env now)
  | 0x03 => .ok (.fcWrite env now)
  | 0x10 => .ok (.pdInit env now)
  | 0x11 => .ok (.pdEdge env now)
  | 0x12 => .ok (.pdRead env now)
  | 0x13 => .ok (.pdWrite env now)
  | 0x14 => .ok (.pdReqDone env now)
  | 0x15 => .ok (.pdListenDone env now)
  | _ => .error (.reservedOp op)

/-- The operation a word stands for, or the name of its rejection (30_encoding.md R100, R106, R107). -/
def decodeWord (w : OpWord) : Except Reject Instr :=
  decodeOp (OpWord.op w) (OpWord.env w) (OpWord.now w)

/-- The operation code of an operation (30_encoding.md R106). -/
def Instr.op : Instr → Byte
  | .fcInit _ _ => 0x00
  | .fcEdge _ _ => 0x01
  | .fcRead _ _ => 0x02
  | .fcWrite _ _ => 0x03
  | .pdInit _ _ => 0x10
  | .pdEdge _ _ => 0x11
  | .pdRead _ _ => 0x12
  | .pdWrite _ _ => 0x13
  | .pdReqDone _ _ => 0x14
  | .pdListenDone _ _ => 0x15

/-- The word of an operation: `op`, then `env`, then `now` (30_encoding.md R100). -/
def encode (i : Instr) : OpWord := i.op ++ i.env ++ i.now

/-- The word numbered as spec/opcode_table.json numbers it (bit 0 is the least significant bit of the 80-bit word),
the bits from `nbits` on being 0. -/
def tableWord (nbits w : Nat) : OpWord := BitVec.ofNat 80 (w % 2 ^ nbits)

/-- What the decoder reads from a word given by its table bits. -/
def decodeTableWord (nbits w : Nat) : Option Instr :=
  match decodeWord (tableWord nbits w) with
  | .ok i => some i
  | .error _ => none

end Sys2Proof
end

