-- ==== Sys2Proof/Config.lean ====
section
/-! DEFINITION. The implementation parameters of 00_scope.md R8: the fixed figures as named constants, the others as a
record with the spec's defaults and constraints. The model has no free value: every open point of the source is decided
by a rule of the spec or carried by the operation itself (`now`, `env`). -/

namespace Sys2Proof

/-- Numerator of both frequency divisions, nanoseconds in a second (00_scope.md R8). -/
def Config.nsPerS : Nat := 1000000000

/-- Bytes in the PD frame buffer (00_scope.md R8). -/
def Config.frameBytes : Nat := 5

/-- Payload and checksum bits, `8 * FRAME_BYTES` (00_scope.md R8). -/
def Config.frameBits : Nat := 8 * Config.frameBytes

/-- Leading edges discarded (00_scope.md R8). -/
def Config.handshakeEdges : Nat := 2

/-- Edges a valid frame has (00_scope.md R8). -/
def Config.frameEdges : Nat := Config.handshakeEdges + Config.frameBits

/-- A pulse is a "1" when its delta in microseconds is above this (00_scope.md R8). -/
def Config.bitThrUs : Nat := 100

/-- The parameters an implementation may choose (00_scope.md R8). -/
structure Params where
  /-- `RING_CAP`, entries in the FC sample ring. -/
  ringCap : Nat
  /-- `REQ_MIN_NS`, shortest request pulse. -/
  reqMinNs : Nat
  /-- `REQ_MAX_NS`, longest request pulse. -/
  reqMaxNs : Nat
  /-- `LISTEN_MIN_NS`, shortest listen window. -/
  listenMinNs : Nat
  /-- `LISTEN_MAX_NS`, longest listen window. -/
  listenMaxNs : Nat
  /-- `EC_SAT`, value at which an implementation's edge counter may saturate (10_state.md R28). -/
  ecSat : Nat
  deriving DecidableEq, Repr

/-- The constraints of 00_scope.md R8: an even capacity of at least 2, ordered delay bounds, a saturation of at least
43. -/
abbrev Params.wf (p : Params) : Prop :=
  2 ≤ p.ringCap ∧ p.ringCap % 2 = 0 ∧ p.reqMinNs ≤ p.reqMaxNs ∧ p.listenMinNs ≤ p.listenMaxNs ∧
    43 ≤ p.ecSat

/-- The default values of 00_scope.md R8. -/
def Params.default : Params where
  ringCap := 256
  reqMinNs := 1000000
  reqMaxNs := 20000000
  listenMinNs := 5000000
  listenMaxNs := 10000000
  ecSat := 63

end Sys2Proof
end

