-- ==== Sys2Proof/Machine/State.lean ====
section
/-! DEFINITION. The state of the block (10_state.md R20 to R41) as plain data: unit FC, unit PD, the parameter record,
the static configuration inputs, and what the model keeps of the environment: the time of the operation before, the
offered operation words and the latest response. -/

namespace Sys2Proof.Machine

/-- The two units (00_scope.md R3). -/
inductive UnitId where
  | fc
  | pd
  deriving DecidableEq, Repr

/-- The values of the PD handshake sequencer (10_state.md R31). -/
inductive Phase where
  | idle
  | requesting
  | listening
  deriving DecidableEq, Repr

/-- The status of a response (30_encoding.md R104). -/
inductive Status where
  | okData
  | okEmpty
  | errIo
  | errInval
  | errCopy
  | errInit
  | okInit
  deriving DecidableEq, Repr

/-- The four faults the block raises; each is a status on a response, not a stop (60_exceptions.md R230). -/
inductive BlockFault where
  | frameFault
  | invalidArgument
  | copyFault
  | initFault
  deriving DecidableEq, Repr

/-- The record an answering operation produces (30_encoding.md R103). -/
structure Response where
  unit : UnitId
  status : Status
  text : List Byte
  deriving DecidableEq, Repr

/-- A private memory: cells (index, value), indices strictly rising, no cell holding 0. An unlisted index reads 0, the
reset contents of both memories (10_state.md R40). -/
abbrev Memory (w : Nat) := List (Nat × BitVec w)

/-- The static configuration inputs that INIT samples (10_state.md R33, 30_encoding.md R101). -/
structure Inputs where
  fcPin : Reg32
  fcMinFreq : Reg32
  fcMaxFreq : Reg32
  pdPin : Reg32
  deriving DecidableEq, Repr

/-- Unit FC (10_state.md R21 to R25, R33). -/
structure FcUnit where
  /-- `FC.present` (R25). -/
  present : Bool
  /-- `FC.pin` (R33). -/
  pin : Reg32
  /-- `FC.min_freq` (R33). -/
  minFreq : Reg32
  /-- `FC.max_freq` (R33). -/
  maxFreq : Reg32
  /-- `FC.prev` (R21). -/
  prev : Time
  /-- `FC.ring` (R22). -/
  ring : Memory 64
  /-- `FC.widx` (R23). -/
  widx : Nat
  /-- `FC.irq_en` (R24). -/
  irqEn : Bool
  deriving DecidableEq, Repr

/-- Unit PD (10_state.md R26 to R35). -/
structure PdUnit where
  /-- `PD.present` (R34). -/
  present : Bool
  /-- `PD.pin` (R33). -/
  pin : Reg32
  /-- `PD.prev` (R26). -/
  prev : Time
  /-- `PD.frame` (R27). -/
  frame : Memory 8
  /-- `PD.ec`, an unbounded natural (R28). -/
  ec : Nat
  /-- `PD.cooldown` (R29). -/
  cooldown : Bool
  /-- `PD.irq_en` (R30). -/
  irqEn : Bool
  /-- `PD.phase` (R31). -/
  phase : Phase
  /-- `PD.t_phase` (R35). -/
  tPhase : Time
  /-- `PD.line_dir` (R32). -/
  lineDir : Bool
  /-- `PD.line_out` (R32). -/
  lineOut : Bool
  deriving DecidableEq, Repr

/-- The whole machine. -/
structure State where
  fc : FcUnit
  pd : PdUnit
  /-- The parameter record of 00_scope.md R8; no step writes it. -/
  params : Params
  /-- The static inputs INIT samples; no step writes them. -/
  inputs : Inputs
  /-- The `now` of the operation before (00_scope.md R12, 70_reset_and_hazards.md R281). -/
  lastNow : Time
  /-- The operation words offered and not yet taken, oldest first (00_scope.md R10). -/
  pending : List OpWord
  /-- The record the latest operation produced, if it answered (30_encoding.md R105). -/
  response : Option Response
  deriving DecidableEq, Repr

/-- Why the machine stops with a fault of the model. -/
inductive Fault where
  /-- Raised by `FC.EDGE` when `FC.widx` is not below `RING_CAP`, an index 00_scope.md R15 says no rule forms. Safe: the
  model stops; no state that meets the invariant reaches it. -/
  | ringIndex (i : Nat)
  deriving DecidableEq, Repr

/-- Why an operation is refused: it is not accepted and has no step (70_reset_and_hazards.md R281). -/
inductive Refusal where
  /-- Raised by an arm of `exec` whose operation has no meaning yet. Safe: the model stops. -/
  | notModelled (mnemonic : String)
  /-- Raised by `step` on a word with a reserved `op` (30_encoding.md R107). Safe: the model stops. -/
  | reservedOp (op : Byte)
  /-- Raised by every operation whose `now` is below the `now` of the operation before (00_scope.md R12). Safe: the
  model stops. -/
  | timeDecreased
  /-- Raised by an operation, other than INIT, on an absent unit (43_system_ops.md R216). Safe: the model stops. -/
  | unitAbsent (u : UnitId)
  /-- Raised by INIT of a present unit (43_system_ops.md R215). Safe: the model stops. -/
  | unitPresent (u : UnitId)
  /-- Raised by `PD.READ`, `PD.REQ_DONE` and `PD.LISTEN_DONE` in a phase that does not enable them
  (70_reset_and_hazards.md R281, R282). Safe: the model stops. -/
  | wrongPhase (p : Phase)
  /-- Raised by `PD.REQ_DONE` and `PD.LISTEN_DONE` outside their delay bounds (42_protocol_decoder.md R177, R183).
  Safe: the model stops. -/
  | delayOutOfRange
  deriving DecidableEq, Repr

/-- Unit FC after reset (10_state.md R40); the configuration registers are DESIGN CHOICE 0 (log 8). -/
def FcUnit.reset : FcUnit where
  present := false
  pin := 0
  minFreq := 0
  maxFreq := 0
  prev := 0
  ring := []
  widx := 0
  irqEn := true

/-- Unit PD after reset (10_state.md R40); `pin` is DESIGN CHOICE 0 (log 8). -/
def PdUnit.reset : PdUnit where
  present := false
  pin := 0
  prev := 0
  frame := []
  ec := 0
  cooldown := false
  irqEn := false
  phase := .idle
  tPhase := 0
  lineDir := false
  lineOut := false

/-- The machine after reset (10_state.md R40, 70_reset_and_hazards.md R270). The static inputs are DESIGN CHOICE 0
(log 7), the parameters the defaults of 00_scope.md R8 (log 6), `lastNow` DESIGN CHOICE 0 (log 4). -/
def State.reset : State where
  fc := FcUnit.reset
  pd := PdUnit.reset
  params := Params.default
  inputs := ⟨0, 0, 0, 0⟩
  lastNow := 0
  pending := []
  response := none

end Sys2Proof.Machine
end

