-- ==== Sys2Proof/Machine/Operands.lean ====
section
/-! DEFINITION. Operand forms: the environment answers of an operation word (30_encoding.md R102), the derived
parameters (00_scope.md R8), the pulse-width code and the place of a frame bit (R91, R92), the frame's checksum and
fields (R93, R94), the pair filter's arithmetic (41_frequency_capture.md R146, R147), the decimal text primitive
(00_scope.md R19), the result texts (R97, R98) and the response record (R103, R104). -/

namespace Sys2Proof.Machine

/-! ### Environment answers (30_encoding.md R102) -/

/-- `env[0]` of an INIT: "pin already owned". -/
def pinBusy (env : Byte) : Bool := env.getLsbD 0

/-- `env[1]` of an INIT: "direction-set failure". -/
def dirFail (env : Byte) : Bool := env.getLsbD 1

/-- `env[2]` of an INIT: "interrupt-registration failure". -/
def irqFail (env : Byte) : Bool := env.getLsbD 2

/-- `env[0]` of `FC.READ` and `PD.LISTEN_DONE`: the text does not reach the caller. -/
def copyFail (env : Byte) : Bool := env.getLsbD 0

/-! ### Derived parameters (00_scope.md R8) -/

/-- `PAIRS`, the adjacent pairs a read scans. -/
def pairs (p : Params) : Nat := p.ringCap / 2

/-- `GATE_THR`, above which accepted pairs make a read report (90_conflicts.md C1). -/
def gateThr (p : Params) : Nat := pairs p / 4

/-! ### Frequency arithmetic (41_frequency_capture.md R146, R147, R151) -/

/-- The frequency of a period, floor division; asked only of a non-zero period (30_encoding.md R95). -/
def hertz (period : Nat) : Nat := Config.nsPerS / period

/-- A period is accepted: not zero, and its candidate frequency in the window, both bounds inclusive (R146, R147). -/
def acceptsPeriod (minFreq maxFreq : Reg32) (period : Nat) : Bool :=
  decide (period ≠ 0) && decide (minFreq.toNat ≤ hertz period) && decide (hertz period ≤ maxFreq.toNat)

/-- The running sum of accepted periods and their number, local to one `FC.READ` (10_state.md R38). -/
structure Tally where
  sum : Nat
  cnt : Nat
  deriving DecidableEq, Repr

/-- One pair of step 2 and 3 of `FC.READ` (R146, R147). -/
def Tally.addPeriod (minFreq maxFreq : Reg32) (period : Nat) (t : Tally) : Tally :=
  if acceptsPeriod minFreq maxFreq period then ⟨t.sum + period, t.cnt + 1⟩ else t

/-! ### Pulse-width code and frame layout (30_encoding.md R91 to R94) -/

/-- The bit a pulse spells: 1 when its length in whole microseconds is above the threshold (R91). -/
def pulseBit (delta : Time) : Bool := decide (Config.bitThrUs < delta.toNat / 1000)

/-- The edge number carries a frame bit (R92). -/
def inBitWindow (ec : Nat) : Bool := decide (Config.handshakeEdges ≤ ec) && decide (ec < Config.frameEdges)

/-- The byte that holds the frame bit of edge `ec` (20_memory.md R64). -/
def frameByte (ec : Nat) : Nat := (ec - Config.handshakeEdges) / 8

/-- The bit position, inside its byte, of the frame bit of edge `ec` (20_memory.md R64). -/
def frameBit (ec : Nat) : Nat := 7 - (ec - Config.handshakeEdges) % 8

/-- The five bytes of a frame (20_memory.md R65). -/
structure Frame where
  b0 : Byte
  b1 : Byte
  b2 : Byte
  b3 : Byte
  b4 : Byte
  deriving DecidableEq, Repr

/-- The checksum relation, the sum taken on integers and reduced once (30_encoding.md R93). -/
def Frame.checksumOk (f : Frame) : Bool :=
  decide ((f.b0.toNat + f.b1.toNat + f.b2.toNat + f.b3.toNat) % 256 = f.b4.toNat)

/-- Humidity, big-endian 16 bits (30_encoding.md R94). -/
def Frame.humidity (f : Frame) : Nat := (f.b0.toNat <<< 8) ||| f.b1.toNat

/-- The 15-bit temperature magnitude (30_encoding.md R94). -/
def Frame.magnitude (f : Frame) : Nat := ((f.b2 &&& 0x7F#8).toNat <<< 8) ||| f.b3.toNat

/-- The temperature, sign flag and magnitude (30_encoding.md R94, 42_protocol_decoder.md R192). -/
def Frame.temperature (f : Frame) : Int :=
  if f.b2 &&& 0x80#8 ≠ 0#8 then -(f.magnitude : Int) else (f.magnitude : Int)

/-! ### Texts (00_scope.md R19, 30_encoding.md R97, R98) -/

/-- One decimal digit as a byte. -/
def digit (n : Nat) : Byte := BitVec.ofNat 8 (0x30 + n % 10)

/-- Decimal digits with a bound on their number; `dec` gives a bound that is never reached. -/
def decDigits : Nat → Nat → List Byte
  | 0, n => [digit n]
  | fuel + 1, n => if n < 10 then [digit n] else decDigits fuel (n / 10) ++ [digit n]

/-- `dec(v)` for `v >= 0` (00_scope.md R19). -/
def dec (n : Nat) : List Byte := decDigits n n

/-- `dec(v)` for any integer (00_scope.md R19). -/
def decInt (v : Int) : List Byte := if v < 0 then 0x2D#8 :: dec v.natAbs else dec v.natAbs

/-- `dec(hz) ++ "\n"` (30_encoding.md R97). -/
def fcText (hz : Nat) : List Byte := dec hz ++ [0x0A#8]

/-- `"h=" ++ dec(humidity) ++ " t=" ++ dec(temperature) ++ "\n"` (30_encoding.md R98). -/
def pdText (humidity : Nat) (temperature : Int) : List Byte :=
  [0x68#8, 0x3D#8] ++ dec humidity ++ [0x20#8, 0x74#8, 0x3D#8] ++ decInt temperature ++ [0x0A#8]

/-! ### Codes (10_state.md R31, 30_encoding.md R103, R104) -/

/-- The 2-bit code of a phase (10_state.md R31). -/
def Phase.code : Phase → BitVec 2
  | .idle => 0
  | .requesting => 1
  | .listening => 2

/-- The code of a status (30_encoding.md R104). -/
def Status.code : Status → BitVec 4
  | .okData => 0x0
  | .okEmpty => 0x1
  | .errIo => 0x2
  | .errInval => 0x3
  | .errCopy => 0x4
  | .errInit => 0x5
  | .okInit => 0x6

/-- The `unit` nibble (30_encoding.md R103). -/
def UnitId.code : UnitId → BitVec 4
  | .fc => 0
  | .pd => 1

/-- The status code a fault puts on the response (60_exceptions.md R230). -/
def BlockFault.status : BlockFault → Status
  | .frameFault => .errIo
  | .invalidArgument => .errInval
  | .copyFault => .errCopy
  | .initFault => .errInit

/-- The bytes of a response record (30_encoding.md R103). -/
def Response.bytes (r : Response) : List Byte :=
  (r.unit.code ++ r.status.code) :: BitVec.ofNat 8 r.text.length :: r.text

end Sys2Proof.Machine
end

