-- ==== Sys2Proof/Machine/Flags.lean ====
section
/-! DEFINITION. The one-bit state elements (10_state.md R36) and the sequencer: the enabling condition of each operation
(70_reset_and_hazards.md R281), given as the name of the refusal it ends in or none, and the named writes of the masks,
the cooldown flag and the line controls. -/

namespace Sys2Proof.Machine

/-! ### Enabling conditions (70_reset_and_hazards.md R281) -/

/-- Unit FC must be present (43_system_ops.md R216). -/
def fcPresentGate (s : State) : Option Refusal :=
  if s.fc.present then none else some (.unitAbsent .fc)

/-- Unit FC must be absent (43_system_ops.md R215). -/
def fcAbsentGate (s : State) : Option Refusal :=
  if s.fc.present then some (.unitPresent .fc) else none

/-- Unit PD must be present (43_system_ops.md R216). -/
def pdPresentGate (s : State) : Option Refusal :=
  if s.pd.present then none else some (.unitAbsent .pd)

/-- Unit PD must be absent (43_system_ops.md R215). -/
def pdAbsentGate (s : State) : Option Refusal :=
  if s.pd.present then some (.unitPresent .pd) else none

/-- Unit PD must be present and in the given phase (70_reset_and_hazards.md R281, R282). -/
def pdPhaseGate (p : Phase) (s : State) : Option Refusal :=
  if s.pd.present then if s.pd.phase = p then none else some (.wrongPhase s.pd.phase)
  else some (.unitAbsent .pd)

/-- `lo <= now - since <= hi`, on integers (42_protocol_decoder.md R177, R183). -/
def delayWithin (lo hi : Nat) (since now : Time) : Bool :=
  decide (since.toNat + lo ≤ now.toNat) && decide (now.toNat ≤ since.toNat + hi)

/-- The phase gate, then the bounds on the time since the phase was entered (42_protocol_decoder.md R177, R183). -/
def pdDelayGate (p : Phase) (lo hi : Nat) (now : Time) (s : State) : Option Refusal :=
  match pdPhaseGate p s with
  | some r => some r
  | none => if delayWithin lo hi s.pd.tPhase now then none else some .delayOutOfRange

/-! ### Masks, cooldown, line (10_state.md R24, R29, R30, R32) -/

/-- Write the FC notification mask (10_state.md R24). -/
def setFcIrq (b : Bool) (s : State) : State := { s with fc := { s.fc with irqEn := b } }

/-- Write the PD notification mask (10_state.md R30). -/
def setPdIrq (b : Bool) (s : State) : State := { s with pd := { s.pd with irqEn := b } }

/-- Write the cooldown flag (10_state.md R29). -/
def setCooldown (b : Bool) (s : State) : State := { s with pd := { s.pd with cooldown := b } }

/-- Drive the line low (10_state.md R32, 42_protocol_decoder.md R175). -/
def driveLow (s : State) : State := { s with pd := { s.pd with lineOut := false, lineDir := true } }

/-- Release the line: input mode (10_state.md R32, 42_protocol_decoder.md R178). -/
def releaseLine (s : State) : State := { s with pd := { s.pd with lineDir := false } }

/-- Move the sequencer (10_state.md R31). -/
def setPhase (p : Phase) (s : State) : State := { s with pd := { s.pd with phase := p } }

/-- Move the sequencer to a timed phase entered at `now` (10_state.md R35). -/
def enterPhase (p : Phase) (now : Time) (s : State) : State :=
  { s with pd := { s.pd with phase := p, tPhase := now } }

end Sys2Proof.Machine
end

