-- ==== Sys2Proof/Machine/Ops.lean ====
section
/-! DEFINITION. The named operations over memory and state: one entry of a private memory read, written, a range
zeroed (00_scope.md R15, 20_memory.md R61, R62), `mark` (40_edgetimer.md R130), accepting an operation, answering,
raising a fault (60_exceptions.md R236), and taking the next offered operation word. A fault enters nothing, so there is
no return from one (60_exceptions.md R239). -/

namespace Sys2Proof.Machine

/-! ### Private memories -/

/-- `MemRead`: an unlisted index reads 0 (00_scope.md R15, 10_state.md R40). -/
def Memory.read {w : Nat} : Memory w → Nat → BitVec w
  | [], _ => 0
  | (a, v) :: m, i => if a = i then v else Memory.read m i

/-- Drop every cell of index `i`, which then reads 0. -/
def Memory.erase {w : Nat} (m : Memory w) (i : Nat) : Memory w := m.filter (fun c => decide (c.1 ≠ i))

/-- Put a cell before the first cell of a higher index. -/
def Memory.insert {w : Nat} : Memory w → Nat → BitVec w → Memory w
  | [], i, v => [(i, v)]
  | c :: m, i, v => if i < c.1 then (i, v) :: c :: m else c :: Memory.insert m i v

/-- `MemWrite` (00_scope.md R15): the cells stay strictly rising, and writing 0 leaves no cell. -/
def Memory.write {w : Nat} (m : Memory w) (i : Nat) (v : BitVec w) : Memory w :=
  if v = 0 then Memory.erase m i else Memory.insert (Memory.erase m i) i v

/-- Zero every entry below `n`: `for i in 0 .. n-1: MemWrite(i, 0)` (41_frequency_capture.md R148,
42_protocol_decoder.md R176). -/
def Memory.zeroBelow {w : Nat} (n : Nat) (m : Memory w) : Memory w := m.filter (fun c => decide (n ≤ c.1))

/-- The canonical form: indices strictly rising, no cell holding what an unlisted index reads as. -/
abbrev Memory.wf {w : Nat} (m : Memory w) : Prop :=
  m.Pairwise (fun c d => c.1 < d.1) ∧ ∀ c ∈ m, c.2 ≠ 0

/-- The sum of all entries as integers (10_state.md R41 item 6). -/
def Memory.total {w : Nat} : Memory w → Nat
  | [] => 0
  | c :: m => c.2.toNat + Memory.total m

/-! ### EdgeTimer -/

/-- `mark(FC, now)`: the time since the previous mark, and the state with `FC.prev` at `now` (40_edgetimer.md R130). -/
def markFc (now : Time) (s : State) : Time × State :=
  (now - s.fc.prev, { s with fc := { s.fc with prev := now } })

/-- `mark(PD, now)` (40_edgetimer.md R130). -/
def markPd (now : Time) (s : State) : Time × State :=
  (now - s.pd.prev, { s with pd := { s.pd with prev := now } })

/-! ### Accepting and answering -/

/-- An operation that is accepted samples the time; no response stands until it answers (00_scope.md R12, R16). -/
def sample (now : Time) (s : State) : State := { s with lastNow := now, response := none }

/-- Accept an operation: refused if time went back (00_scope.md R12) or its enabling condition is false
(70_reset_and_hazards.md R281), else run `body` on the state that has sampled `now`. -/
def accept (now : Time) (gate : Option Refusal) (s : State) (body : State → Host.Outcome State Fault Refusal) :
    Host.Outcome State Fault Refusal :=
  if s.lastNow ≤ now then
    match gate with
    | none => body (sample now s)
    | some r => .refused r
  else .refused .timeDecreased

/-- `result <status>(text)`: put the record on the response (00_scope.md R16, 30_encoding.md R103). -/
def answer (u : UnitId) (st : Status) (text : List Byte) (s : State) : State :=
  { s with response := some ⟨u, st, text⟩ }

/-- `raise F`: what was written stays written, the response carries the status of `F` with no text, nothing is saved
and control goes nowhere (60_exceptions.md R236). -/
def raiseFault (u : UnitId) (f : BlockFault) (s : State) : State := answer u f.status [] s

/-- Deliver a result text, or `raise CopyFault` when the environment answers so (41_frequency_capture.md R152,
42_protocol_decoder.md R191). -/
def deliver (u : UnitId) (text : List Byte) (fails : Bool) (s : State) : State :=
  if fails then raiseFault u .copyFault s else answer u .okData text s

/-! ### Initialisation answers -/

/-- One of the three initialisation faults is answered, tested in the order line, direction, notification
(43_system_ops.md R211, 60_exceptions.md R238). -/
def initFails (env : Byte) : Bool := if pinBusy env then true else if dirFail env then true else irqFail env

/-! ### Taking an operation word -/

/-- The oldest offered word, and the state without it (00_scope.md R10). -/
def fetch (s : State) : Option (OpWord × State) :=
  match s.pending with
  | [] => none
  | w :: rest => some (w, { s with pending := rest })

/-- The refusal of a word that is no operation (30_encoding.md R107). -/
def rejectWord : Reject → Refusal
  | .reservedOp op => .reservedOp op

/-- Offer a word as the next one to be taken. -/
def offerFirst (w : OpWord) (s : State) : State := { s with pending := w :: s.pending }

end Sys2Proof.Machine
end

