-- ==== Sys2Proof/Machine/FrequencyCapture.lean ====
section
/-! DEFINITION. Unit FC's capture path: `FC.EDGE` and `FC.READ` (41_frequency_capture.md). -/

namespace Sys2Proof.Machine

/-! ### FC.EDGE -/

/-- Append a delta at the cursor and advance it modulo `RING_CAP` (41_frequency_capture.md R141, 20_memory.md R63). -/
def appendDelta (delta : Time) (s : State) : State :=
  { s with fc := { s.fc with ring := Memory.write s.fc.ring s.fc.widx delta,
                             widx := (s.fc.widx + 1) % s.params.ringCap } }

/-- `FC.EDGE` (41_frequency_capture.md R141); the masked arm changes nothing (R142). -/
def execFcEdge (_env : Byte) (now : Time) (s : State) : Host.Outcome State Fault Refusal :=
  accept now (fcPresentGate s) s fun s =>
    if s.fc.irqEn then
      if s.fc.widx < s.params.ringCap then .next (appendDelta (markFc now s).1 (markFc now s).2)
      else .fault (.ringIndex s.fc.widx)
    else .next s

/-! ### FC.READ -/

/-- The period of pair `k`: entries `2k` and `2k + 1` (41_frequency_capture.md R146, 20_memory.md R68). -/
def pairPeriod (ring : Memory 64) (k : Nat) : Nat :=
  (Memory.read ring (2 * k)).toNat + (Memory.read ring (2 * k + 1)).toNat

/-- Steps 2 and 3 over the first `n` pairs in index order (41_frequency_capture.md R146, R147). -/
def scanPairs (minFreq maxFreq : Reg32) (ring : Memory 64) : Nat → Tally
  | 0 => ⟨0, 0⟩
  | k + 1 => Tally.addPeriod minFreq maxFreq (pairPeriod ring k) (scanPairs minFreq maxFreq ring k)

/-- Steps 2 and 3 of a read of this state: all `PAIRS` pairs, whatever the cursor. -/
def scanRing (s : State) : Tally := scanPairs s.fc.minFreq s.fc.maxFreq s.fc.ring (pairs s.params)

/-- Step 4: every entry 0, cursor 0 (41_frequency_capture.md R148). -/
def drainRing (s : State) : State :=
  { s with fc := { s.fc with ring := Memory.zeroBelow s.params.ringCap s.fc.ring, widx := 0 } }

/-- Step 6: gate, average, report (41_frequency_capture.md R150 to R152). The branch of a zero average is the source's
and cannot be reached (90_conflicts.md C5). -/
def reportTally (t : Tally) (fails : Bool) (s : State) : State :=
  if gateThr s.params < t.cnt then
    if t.sum / t.cnt = 0 then answer .fc .okEmpty [] s
    else deliver .fc (fcText (hertz (t.sum / t.cnt))) fails s
  else answer .fc .okEmpty [] s

/-- `FC.READ` (41_frequency_capture.md R144): mask, scan, drain, unmask, report. -/
def execFcRead (env : Byte) (now : Time) (s : State) : Host.Outcome State Fault Refusal :=
  accept now (fcPresentGate s) s fun s =>
    .next (reportTally (scanRing (setFcIrq false s)) (copyFail env) (setFcIrq true (drainRing (setFcIrq false s))))

end Sys2Proof.Machine
end

