-- ==== Sys2Proof/Machine/ProtocolDecoder.lean ====
section
/-! DEFINITION. Unit PD's handshake: `PD.READ`, `PD.REQ_DONE`, `PD.EDGE`, `PD.LISTEN_DONE` (42_protocol_decoder.md). -/

namespace Sys2Proof.Machine

/-! ### PD.READ -/

/-- The start arm: mark the baseline, drive the line low, enter `Requesting` (42_protocol_decoder.md R175). -/
def startHandshake (now : Time) (s : State) : State :=
  enterPhase .requesting now (driveLow (markPd now s).2)

/-- `PD.READ` (42_protocol_decoder.md R173): the cooldown is tested before anything else (R174), so a success is followed
by one empty read (R193 item 2); it runs in `Idle` only, so one read at most is unanswered (R193 item 5). -/
def execPdRead (_env : Byte) (now : Time) (s : State) : Host.Outcome State Fault Refusal :=
  accept now (pdPhaseGate .idle s) s fun s =>
    if s.pd.cooldown then .next (answer .pd .okEmpty [] (setCooldown false s))
    else .next (startHandshake now s)

/-! ### PD.REQ_DONE -/

/-- Clear the frame buffer and the edge counter (42_protocol_decoder.md R176, R178). -/
def clearFrame (s : State) : State :=
  { s with pd := { s.pd with frame := Memory.zeroBelow Config.frameBytes s.pd.frame, ec := 0 } }

/-- `PD.REQ_DONE` (42_protocol_decoder.md R176): release, clear, enable, in that order (R178). -/
def execPdReqDone (_env : Byte) (now : Time) (s : State) : Host.Outcome State Fault Refusal :=
  accept now (pdDelayGate .requesting s.params.reqMinNs s.params.reqMaxNs now s) s fun s =>
    .next (enterPhase .listening now (setPdIrq true (clearFrame (releaseLine s))))

/-! ### PD.EDGE -/

/-- What an implementation of the edge counter may hold in its stead: the count saturated at `EC_SAT` (10_state.md R28).
The machine counts without bound, which that rule makes the architecture. -/
def heldEdgeCount (s : State) : Nat := min s.pd.ec s.params.ecSat

/-- Set the frame bit of edge `PD.ec`, a read-modify-write of one byte (42_protocol_decoder.md R180, 20_memory.md R64,
R70). -/
def setFrameBit (s : State) : State :=
  { s with pd := { s.pd with
      frame := Memory.write s.pd.frame (frameByte s.pd.ec)
        (Memory.read s.pd.frame (frameByte s.pd.ec) ||| (1#8 <<< frameBit s.pd.ec)) } }

/-- Classify a delivered edge: a long pulse inside the bit window sets its bit (42_protocol_decoder.md R180, R181); the
length of any other edge is not looked at (R193 item 4). -/
def decodeEdge (delta : Time) (s : State) : State :=
  if inBitWindow s.pd.ec && pulseBit delta then setFrameBit s else s

/-- Count a delivered edge (42_protocol_decoder.md R180). -/
def countEdge (s : State) : State := { s with pd := { s.pd with ec := s.pd.ec + 1 } }

/-- `PD.EDGE` (42_protocol_decoder.md R180); the masked arm changes nothing (R179). -/
def execPdEdge (_env : Byte) (now : Time) (s : State) : Host.Outcome State Fault Refusal :=
  accept now (pdPresentGate s) s fun s =>
    if s.pd.irqEn then .next (countEdge (decodeEdge (markPd now s).1 (markPd now s).2))
    else .next s

/-! ### PD.LISTEN_DONE -/

/-- The frame buffer's five bytes (42_protocol_decoder.md R182). -/
def loadFrame (m : Memory 8) : Frame :=
  ⟨Memory.read m 0, Memory.read m 1, Memory.read m 2, Memory.read m 3, Memory.read m 4⟩

/-- A frame is valid: exactly 42 edges and a matching checksum (42_protocol_decoder.md R185, R186). -/
def frameValid (s : State) : Bool :=
  if s.pd.ec ≠ Config.frameEdges then false else (loadFrame s.pd.frame).checksumOk

/-- Decode and answer: a frame-fault, or set the cooldown and deliver the fields (42_protocol_decoder.md R185 to R191);
there is text only for a valid frame (R193 items 1 and 3). -/
def answerFrame (fails : Bool) (s : State) : State :=
  if frameValid s then
    deliver .pd (pdText (loadFrame s.pd.frame).humidity (loadFrame s.pd.frame).temperature) fails (setCooldown true s)
  else raiseFault .pd .frameFault s

/-- `PD.LISTEN_DONE` (42_protocol_decoder.md R182): close the window first (R184), then decode. -/
def execPdListenDone (env : Byte) (now : Time) (s : State) : Host.Outcome State Fault Refusal :=
  accept now (pdDelayGate .listening s.params.listenMinNs s.params.listenMaxNs now s) s fun s =>
    .next (answerFrame (copyFail env) (setPhase .idle (setPdIrq false s)))

end Sys2Proof.Machine
end

