-- ==== Sys2Proof/Machine/SystemOps.lean ====
section
/-! DEFINITION. The system operations: `FC.INIT`, `PD.INIT`, `FC.WRITE`, `PD.WRITE` (43_system_ops.md). -/

namespace Sys2Proof.Machine

/-- Latch the configuration and write the capture state of unit FC at its reset values (43_system_ops.md R212, R213). -/
def latchFc (s : State) : State :=
  { s with fc := { pin := s.inputs.fcPin, minFreq := s.inputs.fcMinFreq, maxFreq := s.inputs.fcMaxFreq,
                   prev := 0, widx := 0, irqEn := true,
                   ring := Memory.zeroBelow s.params.ringCap s.fc.ring, present := true } }

/-- `FC.INIT` (43_system_ops.md R212). -/
def execFcInit (env : Byte) (now : Time) (s : State) : Host.Outcome State Fault Refusal :=
  accept now (fcAbsentGate s) s fun s =>
    if initFails env then .next (raiseFault .fc .initFault s) else .next (answer .fc .okInit [] (latchFc s))

/-- Latch the configuration and write the capture state of unit PD at its reset values (43_system_ops.md R214). -/
def latchPd (s : State) : State :=
  { s with pd := { pin := s.inputs.pdPin, prev := 0, ec := 0, cooldown := false, irqEn := false, phase := .idle,
                   tPhase := 0, lineDir := false, lineOut := false,
                   frame := Memory.zeroBelow Config.frameBytes s.pd.frame, present := true } }

/-- `PD.INIT` (43_system_ops.md R214). -/
def execPdInit (env : Byte) (now : Time) (s : State) : Host.Outcome State Fault Refusal :=
  accept now (pdAbsentGate s) s fun s =>
    if initFails env then .next (raiseFault .pd .initFault s) else .next (answer .pd .okInit [] (latchPd s))

/-- `FC.WRITE`: always rejected, nothing written (43_system_ops.md R218). -/
def execFcWrite (_env : Byte) (now : Time) (s : State) : Host.Outcome State Fault Refusal :=
  accept now (fcPresentGate s) s fun s => .next (raiseFault .fc .invalidArgument s)

/-- `PD.WRITE`: always rejected, in any phase, nothing written (43_system_ops.md R219, R220). -/
def execPdWrite (_env : Byte) (now : Time) (s : State) : Host.Outcome State Fault Refusal :=
  accept now (pdPresentGate s) s fun s => .next (raiseFault .pd .invalidArgument s)

end Sys2Proof.Machine
end

