-- ==== Sys2Proof/Machine/Dispatch.lean ====
section
/-! DEFINITION. The dispatch: one arm per constructor of Instr, each one direct call of its meaning. -/

namespace Sys2Proof.Machine

def exec (i : Instr) (s : State) : Host.Outcome State Fault Refusal :=
  match i with
  | .fcInit env now => Sys2Proof.Machine.execFcInit env now s
  | .fcEdge env now => Sys2Proof.Machine.execFcEdge env now s
  | .fcRead env now => Sys2Proof.Machine.execFcRead env now s
  | .fcWrite env now => Sys2Proof.Machine.execFcWrite env now s
  | .pdInit env now => Sys2Proof.Machine.execPdInit env now s
  | .pdEdge env now => Sys2Proof.Machine.execPdEdge env now s
  | .pdRead env now => Sys2Proof.Machine.execPdRead env now s
  | .pdWrite env now => Sys2Proof.Machine.execPdWrite env now s
  | .pdReqDone env now => Sys2Proof.Machine.execPdReqDone env now s
  | .pdListenDone env now => Sys2Proof.Machine.execPdListenDone env now s

end Sys2Proof.Machine
end

