-- ==== Sys2Proof/Machine/Step.lean ====
section
/-! DEFINITION. One step: take the oldest offered operation word, decode it, run it. The block runs no program
(20_memory.md R76); its agents offer operations (00_scope.md R10, R11). With nothing offered, nothing happens. -/

namespace Sys2Proof.Machine

/-- One step of the block (00_scope.md R10). A reserved word and an operation that is not enabled have no step
(30_encoding.md R107, 70_reset_and_hazards.md R281). With no word offered the block is idle (log 2). -/
def step (s : State) : Host.Outcome State Fault Refusal :=
  match fetch s with
  | none => .next s
  | some (w, s') =>
    match decodeWord w with
    | .ok i => exec i s'
    | .error r => .refused (rejectWord r)

/-- The state with the given word offered as the next one to be taken: an agent issues the operation (log 1). -/
def State.withFetchWord (s : State) (nbits w : Nat) : State := offerFirst (tableWord nbits w) s

end Sys2Proof.Machine
end

