-- ==== Sys2Proof/Machine/Agents.lean ====
section
/-! DEFINITION. Who issues an operation and in which context it runs (00_scope.md R11, 30_encoding.md R106,
60_exceptions.md R246), and which unit it acts on. -/

namespace Sys2Proof.Machine

/-- The agents that issue operations (00_scope.md R11). -/
inductive Agent where
  | fcProducer
  | fcConsumer
  | pdProducer
  | pdConsumer
  | pdDelayTimer
  | startUpHost
  deriving DecidableEq, Repr

/-- The two execution contexts of a unit (60_exceptions.md R246). -/
inductive Context where
  | producer
  | consumer
  deriving DecidableEq, Repr

/-- The agent that issues an operation (30_encoding.md R106, column "issued by"). -/
def issuer : Instr → Agent
  | .fcInit _ _ => .startUpHost
  | .fcEdge _ _ => .fcProducer
  | .fcRead _ _ => .fcConsumer
  | .fcWrite _ _ => .fcConsumer
  | .pdInit _ _ => .startUpHost
  | .pdEdge _ _ => .pdProducer
  | .pdRead _ _ => .pdConsumer
  | .pdWrite _ _ => .pdConsumer
  | .pdReqDone _ _ => .pdDelayTimer
  | .pdListenDone _ _ => .pdDelayTimer

/-- The context an agent acts in: the delay timer and the host act in the consumer context (60_exceptions.md R246). -/
def Agent.context : Agent → Context
  | .fcProducer => .producer
  | .pdProducer => .producer
  | .fcConsumer => .consumer
  | .pdConsumer => .consumer
  | .pdDelayTimer => .consumer
  | .startUpHost => .consumer

/-- The unit an operation acts on (30_encoding.md R100, the high nibble of `op`). -/
def unitOf : Instr → UnitId
  | .fcInit _ _ => .fc
  | .fcEdge _ _ => .fc
  | .fcRead _ _ => .fc
  | .fcWrite _ _ => .fc
  | .pdInit _ _ => .pd
  | .pdEdge _ _ => .pd
  | .pdRead _ _ => .pd
  | .pdWrite _ _ => .pd
  | .pdReqDone _ _ => .pd
  | .pdListenDone _ _ => .pd

end Sys2Proof.Machine
end

