-- ==== Sys2Proof/Safety.lean ====
section
/-! DEFINITION. The terms claims use: the enabling condition of each operation as the spec's table has it
(70_reset_and_hazards.md R281), the invariant of the machine (10_state.md R41), the form of a response (30_encoding.md
R103), a quiescent state (70_reset_and_hazards.md R292), and the terms of 42_protocol_decoder.md R193. -/

namespace Sys2Proof.Machine

/-! ### Enabling (70_reset_and_hazards.md R281) -/

/-- `lo <= now - since <= hi` on integers (42_protocol_decoder.md R177, R183). -/
abbrev Elapsed (lo hi : Nat) (since now : Time) : Prop :=
  (lo : Int) ≤ (now.toNat : Int) - (since.toNat : Int) ∧ (now.toNat : Int) - (since.toNat : Int) ≤ (hi : Int)

/-- The table of 70_reset_and_hazards.md R281, row by row, without its last row (the time, `TimeForward`). -/
abbrev UnitReady (i : Instr) (s : State) : Prop :=
  match i with
  | .fcInit _ _ => s.fc.present = false
  | .fcEdge _ _ => s.fc.present = true
  | .fcRead _ _ => s.fc.present = true
  | .fcWrite _ _ => s.fc.present = true
  | .pdInit _ _ => s.pd.present = false
  | .pdEdge _ _ => s.pd.present = true
  | .pdRead _ _ => s.pd.present = true ∧ s.pd.phase = .idle
  | .pdWrite _ _ => s.pd.present = true
  | .pdReqDone _ now =>
    s.pd.present = true ∧ s.pd.phase = .requesting ∧ Elapsed s.params.reqMinNs s.params.reqMaxNs s.pd.tPhase now
  | .pdListenDone _ now =>
    s.pd.present = true ∧ s.pd.phase = .listening ∧
      Elapsed s.params.listenMinNs s.params.listenMaxNs s.pd.tPhase now

/-- The last row of that table: `now` is not less than the `now` of the operation before. -/
abbrev TimeForward (now : Time) (s : State) : Prop := s.lastNow.toNat ≤ now.toNat

/-- An operation is enabled (70_reset_and_hazards.md R281). -/
abbrev Enabled (i : Instr) (s : State) : Prop := UnitReady i s ∧ TimeForward i.now s

/-! ### The invariant (10_state.md R41) -/

/-- Unit FC: R41 items 1, 2 and 6, the ring in its canonical form inside `RING_CAP`, and `FC.prev` no later than the
operation before (40_edgetimer.md R131). -/
abbrev FcInv (s : State) : Prop :=
  s.fc.widx < s.params.ringCap ∧ s.fc.irqEn = true ∧ Memory.wf s.fc.ring ∧
    (∀ c ∈ s.fc.ring, c.1 < s.params.ringCap) ∧ Memory.total s.fc.ring ≤ s.fc.prev.toNat ∧
    s.fc.prev.toNat ≤ s.lastNow.toNat

/-- Frame bit `n` of the frame buffer (20_memory.md R64). -/
abbrev frameBitAt (m : Memory 8) (n : Nat) : Bool := (Memory.read m (n / 8)).getLsbD (7 - n % 8)

/-- Unit PD: R41 items 3, 4 (a set bit belongs to an edge already counted) and 5, the frame in its canonical form inside
its five bytes, and the two times no later than the operation before. -/
abbrev PdInv (s : State) : Prop :=
  (s.pd.irqEn = true ↔ s.pd.phase = .listening) ∧ (s.pd.lineDir = true ↔ s.pd.phase = .requesting) ∧
    s.pd.lineOut = false ∧ (s.pd.cooldown = true → s.pd.phase = .idle) ∧ Memory.wf s.pd.frame ∧
    (∀ c ∈ s.pd.frame, c.1 < Config.frameBytes) ∧
    (∀ n < Config.frameBits, frameBitAt s.pd.frame n = true → n + Config.handshakeEdges < s.pd.ec) ∧
    s.pd.prev.toNat ≤ s.lastNow.toNat ∧ s.pd.tPhase.toNat ≤ s.lastNow.toNat

/-- An absent unit is as reset left it (43_system_ops.md R212, R216). -/
abbrev AbsentAtReset (s : State) : Prop :=
  (s.fc.present = false → s.fc = FcUnit.reset) ∧ (s.pd.present = false → s.pd = PdUnit.reset)

/-- The invariant of the machine. -/
abbrev Inv (s : State) : Prop := s.params.wf ∧ FcInv s ∧ PdInv s ∧ AbsentAtReset s

/-- The form of a response record: at most 17 text bytes, text exactly with `OK_DATA`, and then at least 2 bytes
(30_encoding.md R103, R104). -/
abbrev ResponseWf (r : Response) : Prop :=
  r.text.length ≤ 17 ∧ (r.status = .okData → 2 ≤ r.text.length) ∧ (r.status ≠ .okData → r.text = [])

/-- Run operations one after another; none where one of them does not answer a next state. -/
def runOps : List Instr → State → Option State
  | [], s => some s
  | i :: is, s =>
    match exec i s with
    | .next t => runOps is t
    | .fault _ => none
    | .refused _ => none

/-- How many operations of a run satisfy a test on the operation and the state it leaves. -/
def countOps (test : Instr → State → Bool) : List Instr → State → Nat
  | [], _ => 0
  | i :: is, s =>
    match exec i s with
    | .next t => (if test i t then 1 else 0) + countOps test is t
    | .fault _ => 0
    | .refused _ => 0

/-- Bit `n` of a frame in wire order (20_memory.md R64). -/
def wireBit (f : Frame) (n : Nat) : Bool := ([f.b0, f.b1, f.b2, f.b3, f.b4].getD (n / 8) 0).getLsbD (7 - n % 8)

/-- A trace may end here: no read is unanswered (70_reset_and_hazards.md R292). -/
abbrev Quiescent (s : State) : Prop := s.pd.phase = .idle

/-! ### The properties of unit PD (42_protocol_decoder.md R193) -/

/-- The times of the `PD.EDGE` operations (op 0x11) of a run, in order: inside one listen window, of its edges. -/
def edgeTimes (ops : List Instr) : List Time := (ops.filter (fun i => decide (i.op = 0x11#8))).map Instr.now

/-- Two lists of edge times agree on the delta of every edge that carries a frame bit, edges 2 to 41 (R193 item 4). -/
abbrev SameBitDeltas (ts us : List Time) : Prop :=
  ts.length = us.length ∧
    ∀ k, 2 ≤ k → k < 42 → k < ts.length → ts.getD k 0 - ts.getD (k - 1) 0 = us.getD k 0 - us.getD (k - 1) 0

/-- `PD.READ` calls that stand unanswered: one from the start of a handshake to its end (R193 item 5). -/
def readsInFlight (s : State) : Nat :=
  match s.pd.phase with
  | .idle => 0
  | .requesting => 1
  | .listening => 1

/-- A `PD.READ` (op 0x12) that was not answered at once: it started a handshake (30_encoding.md R105). -/
def startsRead (i : Instr) (t : State) : Bool := decide (i.op = 0x12#8) && t.response.isNone

/-- A `PD.LISTEN_DONE` (op 0x15) that answered the read in flight (30_encoding.md R105). -/
def answersRead (i : Instr) (t : State) : Bool := decide (i.op = 0x15#8) && t.response.isSome

end Sys2Proof.Machine
end

