-- ==== Sys2Proof/Certificates/Slice0/Obligations.lean ====
section
/-! DEFINITION. The statements for the provers. Each docstring names the rule of spec/ it formalises; a clause that rests
on a choice of the model names the log entry. In every statement about a next state, `lastNow` and `response` are the
model's own fields (log 4, log 5): the sampled time and the response record. -/

open Sys2Proof Sys2Proof.Machine

/-! ### Encoding and stepping -/

/-- 30_encoding.md Part B: the operation word loses no bit in either direction. -/
def Obligations.DecodeEncodeAgree : Prop :=
  (∀ i : Instr, decodeWord (encode i) = .ok i) ∧ ∀ (w : OpWord) (i : Instr), decodeWord w = .ok i → encode i = w

/-- Words that 95_test_vectors.md Part 3, section 2.2 (the `FC.READ`) and section 2.4 (the reserved ones) write out, one for
each operation. -/
def Obligations.SpecWordsDecode : Prop :=
  decodeTableWord 80 0x0000000000000000012C = some (.fcInit 0 300) ∧
  decodeTableWord 80 0x0100000000000016E360 = some (.fcEdge 0 1500000) ∧
  decodeTableWord 80 0x02010000000007B06240 = some (.fcRead 1 129000000) ∧
  decodeTableWord 80 0x030000000000040D9900 = some (.fcWrite 0 68000000) ∧
  decodeTableWord 80 0x10020000000000000000 = some (.pdInit 2 0) ∧
  decodeTableWord 80 0x1100000000000031D5D0 = some (.pdEdge 0 3266000) ∧
  decodeTableWord 80 0x120000000000000F4240 = some (.pdRead 0 1000000) ∧
  decodeTableWord 80 0x130000000000007A1200 = some (.pdWrite 0 8000000) ∧
  decodeTableWord 80 0x140000000000002DC6C0 = some (.pdReqDone 0 3000000) ∧
  decodeTableWord 80 0x150100000000008C6180 = some (.pdListenDone 1 9200000) ∧
  decodeTableWord 80 0x04000000000000000000 = none ∧
  decodeTableWord 80 0xFF000000000000000000 = none

/-- 30_encoding.md Part B, the reserved `op` values: the machine refuses the word by name. -/
def Obligations.ReservedWordsRefused : Prop :=
  ∀ (s : State) (w : OpWord) (rest : List OpWord), s.pending = w :: rest →
    w.extractLsb' 72 8 ∉ [0x00#8, 0x01#8, 0x02#8, 0x03#8, 0x10#8, 0x11#8, 0x12#8, 0x13#8, 0x14#8, 0x15#8] →
    step s = .refused (.reservedOp (w.extractLsb' 72 8))

/-- 00_scope.md section 4: a step runs the oldest offered operation. The queue of offered words is the model's (log 1). -/
def Obligations.StepRunsOfferedOperation : Prop :=
  ∀ (s : State) (w : OpWord) (rest : List OpWord) (i : Instr), s.pending = w :: rest → decodeWord w = .ok i →
    step s = exec i { s with pending := rest }

/-- With no operation offered nothing happens: the model's choice (log 2). -/
def Obligations.NothingOfferedNothingHappens : Prop :=
  ∀ s : State, s.pending = [] → step s = .next s

/-! ### Enabling and refusal -/

/-- 70_reset_and_hazards.md R281, the whole table: an operation is refused, that is it has no step, exactly when its
enabling condition is false; a masked edge is accepted and does nothing. -/
def Obligations.RefusedExactlyWhenNotEnabled : Prop :=
  (∀ (i : Instr) (s : State), (∃ r, exec i s = .refused r) ↔ ¬ Enabled i s) ∧
  (∀ (s : State) (env : Byte) (now : Time), Enabled (.fcEdge env now) s → s.fc.irqEn = false →
    exec (.fcEdge env now) s = .next { s with lastNow := now, response := none }) ∧
  (∀ (s : State) (env : Byte) (now : Time), Enabled (.pdEdge env now) s → s.pd.irqEn = false →
    exec (.pdEdge env now) s = .next { s with lastNow := now, response := none })

/-- An enabled operation completes in every state that meets the invariant (70_reset_and_hazards.md section 3, 10_state.md
section 8); `lastNow` is then its time, and no word is offered or taken by it. -/
def Obligations.EnabledOperationsComplete : Prop :=
  ∀ (i : Instr) (s : State), Inv s → Enabled i s →
    ∃ t, exec i s = .next t ∧ t.lastNow = i.now ∧ t.pending = s.pending

/-- 00_scope.md section 4, "Time": an operation whose `now` is below the `now` of the operation before has no step, and
one that completes leaves its own `now` for the next to be compared with (the field is the model's, log 4). -/
def Obligations.TimeNeverDecreases : Prop :=
  (∀ (i : Instr) (s : State), i.now.toNat < s.lastNow.toNat → exec i s = .refused .timeDecreased) ∧
  ∀ (i : Instr) (s t : State), exec i s = .next t → s.lastNow.toNat ≤ t.lastNow.toNat ∧ t.lastNow = i.now

/-- 43_system_ops.md R216: the operations of an absent unit are refused. -/
def Obligations.AbsentUnitRefusesOperations : Prop :=
  (∀ (s : State) (env : Byte) (now : Time), s.fc.present = false → TimeForward now s →
    exec (.fcEdge env now) s = .refused (.unitAbsent .fc) ∧ exec (.fcRead env now) s = .refused (.unitAbsent .fc) ∧
    exec (.fcWrite env now) s = .refused (.unitAbsent .fc)) ∧
  (∀ (s : State) (env : Byte) (now : Time), s.pd.present = false → TimeForward now s →
    exec (.pdEdge env now) s = .refused (.unitAbsent .pd) ∧ exec (.pdRead env now) s = .refused (.unitAbsent .pd) ∧
    exec (.pdWrite env now) s = .refused (.unitAbsent .pd) ∧ exec (.pdReqDone env now) s = .refused (.unitAbsent .pd) ∧
    exec (.pdListenDone env now) s = .refused (.unitAbsent .pd))

/-- 43_system_ops.md R215: INIT of a present unit is refused; after a failed INIT the unit is still absent and INIT may
be issued again. -/
def Obligations.InitOfPresentUnitRefusedFailedInitRetried : Prop :=
  (∀ (s : State) (env : Byte) (now : Time), s.fc.present = true → TimeForward now s →
    exec (.fcInit env now) s = .refused (.unitPresent .fc)) ∧
  (∀ (s : State) (env : Byte) (now : Time), s.pd.present = true → TimeForward now s →
    exec (.pdInit env now) s = .refused (.unitPresent .pd)) ∧
  (∀ (s : State) (env env' : Byte) (now now' : Time), s.fc.present = false → TimeForward now s → env &&& 7#8 ≠ 0#8 →
    now.toNat ≤ now'.toNat → env' &&& 7#8 = 0#8 →
    ∃ t u, exec (.fcInit env now) s = .next t ∧ t.fc.present = false ∧ exec (.fcInit env' now') t = .next u ∧
      u.fc.present = true ∧ u.response = some ⟨.fc, .okInit, []⟩) ∧
  (∀ (s : State) (env env' : Byte) (now now' : Time), s.pd.present = false → TimeForward now s → env &&& 7#8 ≠ 0#8 →
    now.toNat ≤ now'.toNat → env' &&& 7#8 = 0#8 →
    ∃ t u, exec (.pdInit env now) s = .next t ∧ t.pd.present = false ∧ exec (.pdInit env' now') t = .next u ∧
      u.pd.present = true ∧ u.response = some ⟨.pd, .okInit, []⟩)

/-- 70_reset_and_hazards.md section 3 (single reader): a second `PD.READ` while one is in flight is refused. -/
def Obligations.SecondReadInFlightRefused : Prop :=
  ∀ (s : State) (env : Byte) (now : Time), s.pd.present = true → s.pd.phase ≠ .idle → TimeForward now s →
    exec (.pdRead env now) s = .refused (.wrongPhase s.pd.phase)

/-! ### Reset and the invariant -/

/-- 10_state.md R40, the whole table; the configuration registers are unspecified there and are not stated. -/
def Obligations.ResetValues : Prop :=
  State.reset.fc.present = false ∧ State.reset.pd.present = false ∧ State.reset.fc.prev = 0#64 ∧
  (∀ i, Memory.read State.reset.fc.ring i = 0#64) ∧ State.reset.fc.widx = 0 ∧ State.reset.fc.irqEn = true ∧
  State.reset.pd.prev = 0#64 ∧ (∀ j, Memory.read State.reset.pd.frame j = 0#8) ∧ State.reset.pd.ec = 0 ∧
  State.reset.pd.cooldown = false ∧ State.reset.pd.irqEn = false ∧ State.reset.pd.phase = .idle ∧
  State.reset.pd.tPhase = 0#64 ∧ State.reset.pd.lineDir = false ∧ State.reset.pd.lineOut = false

/-- The reset state meets the invariant (10_state.md sections 7 and 8). -/
def Obligations.ResetMeetsMachineInvariant : Prop := Inv State.reset

/-- Every step keeps the invariant: the six items of 10_state.md section 8, the canonical form of both memories, the
order of the stored times, and absent units at their reset values (whose configuration registers are the model's 0,
log 8). -/
def Obligations.StepKeepsMachineInvariant : Prop :=
  ∀ s t : State, Inv s → step s = .next t → Inv t

/-- No operation of the block stops with a fault of the model in a state that meets the invariant: no rule forms an index
outside the ring (00_scope.md section 5). -/
def Obligations.NoIndexOutsideTheRing : Prop :=
  ∀ (s : State) (r : Fault), Inv s → step s ≠ .fault r

/-! ### EdgeTimer -/

/-- 40_edgetimer.md R130, R134: `mark` returns the time since the previous mark, keeps the new time and writes
nothing else; the second of two marks at one time returns 0; each unit's mark leaves the other's alone. -/
def Obligations.MarkReturnsElapsedTime : Prop :=
  ∀ (s : State) (now : Time),
    markFc now s = (now - s.fc.prev, { s with fc := { s.fc with prev := now } }) ∧
    markPd now s = (now - s.pd.prev, { s with pd := { s.pd with prev := now } }) ∧
    (markFc now (markFc now s).2).1 = 0#64 ∧ (markPd now (markPd now s).2).1 = 0#64 ∧
    (markFc now s).2.pd = s.pd ∧ (markPd now s).2.fc = s.fc

/-- 40_edgetimer.md R131: when `mark` runs, `now` is not below the stored time, so the delta is the exact difference. -/
def Obligations.MarkNeverBorrows : Prop :=
  ∀ (s : State) (now : Time), Inv s → TimeForward now s →
    s.fc.prev.toNat ≤ now.toNat ∧ s.pd.prev.toNat ≤ now.toNat ∧
    (markFc now s).1.toNat = now.toNat - s.fc.prev.toNat ∧ (markPd now s).1.toNat = now.toNat - s.pd.prev.toNat

/-- 40_edgetimer.md "Where mark is invoked": which operations leave a new mark, over all ten. A successful INIT writes
the reset value (43_system_ops.md). -/
def Obligations.MarkedOnlyByEdgesAndHandshakeStart : Prop :=
  ∀ (i : Instr) (s t : State), exec i s = .next t →
    t.fc.prev = (match i with
      | .fcEdge _ now => if s.fc.irqEn then now else s.fc.prev
      | .fcInit env _ => if env &&& 7#8 = 0#8 then 0#64 else s.fc.prev
      | _ => s.fc.prev) ∧
    t.pd.prev = (match i with
      | .pdEdge _ now => if s.pd.irqEn then now else s.pd.prev
      | .pdRead _ now => if s.pd.cooldown then s.pd.prev else now
      | .pdInit env _ => if env &&& 7#8 = 0#8 then 0#64 else s.pd.prev
      | _ => s.pd.prev)

/-! ### FrequencyCapture -/

/-- `FC.EDGE` (41_frequency_capture.md, "FC.EDGE"; 20_memory.md section 2): the delta lands at the cursor, every other
entry reads as before, the cursor advances modulo `RING_CAP`, and nothing else changes. -/
def Obligations.FcEdgeAppendsDelta : Prop :=
  ∀ (s : State) (env : Byte) (now : Time), s.fc.present = true → TimeForward now s → s.fc.irqEn = true →
    s.fc.widx < s.params.ringCap →
    ∃ t, exec (.fcEdge env now) s = .next t ∧
      Memory.read t.fc.ring s.fc.widx = now - s.fc.prev ∧
      (∀ j, j ≠ s.fc.widx → Memory.read t.fc.ring j = Memory.read s.fc.ring j) ∧
      t = { s with lastNow := now, response := none,
                   fc := { s.fc with prev := now, ring := t.fc.ring, widx := (s.fc.widx + 1) % s.params.ringCap } }

/-- 41_frequency_capture.md R142: a masked `FC.EDGE` changes nothing, and that arm is never taken at an operation
boundary of a machine that meets the invariant. -/
def Obligations.FcMaskedEdgeChangesNothing : Prop :=
  (∀ (s : State) (env : Byte) (now : Time), s.fc.present = true → TimeForward now s → s.fc.irqEn = false →
    exec (.fcEdge env now) s = .next { s with lastNow := now, response := none }) ∧
  ∀ s : State, Inv s → s.fc.irqEn = true

/-- 41_frequency_capture.md R148: whatever its result, every `FC.READ` leaves every entry 0 and the cursor 0. The
statement adds the frame of `FC.READ`: `FC.prev`, the configuration and unit PD are unchanged, the mask is lifted (R149). -/
def Obligations.FcReadAlwaysDrains : Prop :=
  ∀ (s : State) (env : Byte) (now : Time), s.fc.present = true → TimeForward now s →
    ∃ t, exec (.fcRead env now) s = .next t ∧
      (∀ i, i < s.params.ringCap → Memory.read t.fc.ring i = 0#64) ∧
      (∀ i, s.params.ringCap ≤ i → Memory.read t.fc.ring i = Memory.read s.fc.ring i) ∧
      t = { s with lastNow := now, response := t.response,
                   fc := { s.fc with ring := t.fc.ring, widx := 0, irqEn := true } }

/-- The result of `FC.READ` (41_frequency_capture.md, "FC.READ"; 30_encoding.md "FC text result"): the accepted pairs, the
strict gate, the mean period, its frequency, and delivery. -/
def Obligations.FcReadReportsFrequencyOfMeanPeriod : Prop :=
  ∀ (s : State) (env : Byte) (now : Time), s.fc.present = true → TimeForward now s →
    let period := fun k => (Memory.read s.fc.ring (2 * k)).toNat + (Memory.read s.fc.ring (2 * k + 1)).toNat
    let accepted := (List.range (s.params.ringCap / 2)).filter (fun k => decide (period k ≠ 0 ∧
      s.fc.minFreq.toNat ≤ 1000000000 / period k ∧ 1000000000 / period k ≤ s.fc.maxFreq.toNat))
    let sum := (accepted.map period).sum
    ∃ t, exec (.fcRead env now) s = .next t ∧
      t.response = some (if accepted.length ≤ s.params.ringCap / 2 / 4 then ⟨.fc, .okEmpty, []⟩
        else if env.getLsbD 0 then ⟨.fc, .errCopy, []⟩
        else ⟨.fc, .okData, dec (1000000000 / (sum / accepted.length)) ++ [0x0A#8]⟩)

/-- 41_frequency_capture.md R150: a read with at most a quarter of its pairs accepted is empty, with one more it reports;
at the default capacity 32 pairs are empty and 33 report. -/
def Obligations.GateIsStrictAtThirtyTwo : Prop :=
  gateThr Params.default = 32 ∧ (∀ p : Params, gateThr p = p.ringCap / 2 / 4) ∧
  ∀ (s : State) (env : Byte) (now : Time), s.fc.present = true → TimeForward now s →
    ((scanRing s).cnt ≤ gateThr s.params →
      ∃ t, exec (.fcRead env now) s = .next t ∧ t.response = some ⟨.fc, .okEmpty, []⟩) ∧
    (gateThr s.params < (scanRing s).cnt →
      ∃ t r, exec (.fcRead env now) s = .next t ∧ t.response = some r ∧ r.status ≠ .okEmpty)

/-- The branch of a zero average is never reached (90_conflicts.md C5; 41_frequency_capture.md, "average and report"). -/
def Obligations.AverageIsNeverZero : Prop :=
  ∀ s : State, (scanRing s).cnt ≤ (scanRing s).sum ∧ (0 < (scanRing s).cnt → (scanRing s).sum / (scanRing s).cnt ≠ 0)

/-- The window filter in terms of the period alone (41_frequency_capture.md R147). -/
def Obligations.WindowFilterInPeriods : Prop :=
  ∀ (minFreq maxFreq : Reg32) (p : Nat),
    (acceptsPeriod minFreq maxFreq p = true ↔
      p ≠ 0 ∧ minFreq.toNat ≤ 1000000000 / p ∧ 1000000000 / p ≤ maxFreq.toNat) ∧
    (1 ≤ minFreq.toNat → p ≠ 0 → (acceptsPeriod minFreq maxFreq p = true ↔
      1000000000 / (maxFreq.toNat + 1) < p ∧ p ≤ 1000000000 / minFreq.toNat)) ∧
    (minFreq.toNat = 0 → p ≠ 0 → (acceptsPeriod minFreq maxFreq p = true ↔ 1000000000 / (maxFreq.toNat + 1) < p)) ∧
    (maxFreq.toNat < minFreq.toNat → acceptsPeriod minFreq maxFreq p = false) ∧
    ∀ t : Tally, Tally.addPeriod minFreq maxFreq p t =
      if acceptsPeriod minFreq maxFreq p then ⟨t.sum + p, t.cnt + 1⟩ else t

/-- A data result of `FC.READ` names a frequency in the window (41_frequency_capture.md, properties of FC.READ, items 1
and 2). -/
def Obligations.ReportedFrequencyInWindow : Prop :=
  ∀ (s t : State) (env : Byte) (now : Time) (text : List Byte), exec (.fcRead env now) s = .next t →
    t.response = some ⟨.fc, .okData, text⟩ →
    ∃ hz, text = dec hz ++ [0x0A#8] ∧ s.fc.minFreq.toNat ≤ hz ∧ hz ≤ s.fc.maxFreq.toNat ∧ hz ≤ 1000000000

/-- A second `FC.READ` with no `FC.EDGE` between reads empty, whatever other operations of either unit stand between
(41_frequency_capture.md, properties of FC.READ, item 3). -/
def Obligations.SecondReadIsEmpty : Prop :=
  ∀ (s t u : State) (ops : List Instr) (env env' : Byte) (now now' : Time), exec (.fcRead env now) s = .next t →
    (∀ i ∈ ops, i.op ≠ 0x01#8) → runOps ops t = some u → TimeForward now' u →
    ∃ v, exec (.fcRead env' now') u = .next v ∧ v.response = some ⟨.fc, .okEmpty, []⟩

/-- If every candidate frequency is outside the window, or the window is empty, a read is empty
(41_frequency_capture.md, properties of FC.READ, item 4; "window filter"). -/
def Obligations.OutOfRangePairsReadEmpty : Prop :=
  ∀ (s : State) (env : Byte) (now : Time), s.fc.present = true → TimeForward now s →
    (∀ k, k < s.params.ringCap / 2 → pairPeriod s.fc.ring k = 0 ∨
      1000000000 / pairPeriod s.fc.ring k < s.fc.minFreq.toNat ∨
      s.fc.maxFreq.toNat < 1000000000 / pairPeriod s.fc.ring k) →
    ∃ t, exec (.fcRead env now) s = .next t ∧ t.response = some ⟨.fc, .okEmpty, []⟩

/-- At the default capacity, a ring whose entries from index 64 on are 0, as after at most 64 appends since a read, reads
empty (41_frequency_capture.md, properties of FC.READ, item 5). -/
def Obligations.SixtyFourSamplesReadEmpty : Prop :=
  ∀ (s : State) (env : Byte) (now : Time), s.fc.present = true → TimeForward now s → s.params = Params.default →
    (∀ i, 64 ≤ i → Memory.read s.fc.ring i = 0#64) →
    ∃ t, exec (.fcRead env now) s = .next t ∧ t.response = some ⟨.fc, .okEmpty, []⟩

/-- 00_scope.md R18: the sum of any distinct ring entries is at most the time of the operation before, so periods and
running sums fit in 64 bits, and the accepted counter is at most `PAIRS`. -/
def Obligations.RingSumsFitInSixtyFourBits : Prop :=
  ∀ s : State, Inv s →
    (∀ idx : List Nat, idx.Nodup → (idx.map (fun i => (Memory.read s.fc.ring i).toNat)).sum ≤ s.lastNow.toNat) ∧
    (∀ k, pairPeriod s.fc.ring k < 2 ^ 64) ∧
    (∀ n, (scanPairs s.fc.minFreq s.fc.maxFreq s.fc.ring n).sum < 2 ^ 64) ∧
    (∀ n, 1000000000 / pairPeriod s.fc.ring n < 2 ^ 64) ∧
    (∀ n, (scanPairs s.fc.minFreq s.fc.maxFreq s.fc.ring n).sum /
      (scanPairs s.fc.minFreq s.fc.maxFreq s.fc.ring n).cnt < 2 ^ 64) ∧
    (scanRing s).cnt ≤ s.params.ringCap / 2 ∧ pairs Params.default = 128

/-! ### ProtocolDecoder -/

/-- 42_protocol_decoder.md R174: the cooldown arm clears the flag, answers empty, and changes nothing else. -/
def Obligations.PdReadConsumesCooldown : Prop :=
  ∀ (s : State) (env : Byte) (now : Time), s.pd.present = true → s.pd.phase = .idle → TimeForward now s →
    s.pd.cooldown = true →
    exec (.pdRead env now) s = .next { s with lastNow := now, response := some ⟨.pd, .okEmpty, []⟩,
                                              pd := { s.pd with cooldown := false } }

/-- The start arm of `PD.READ` (42_protocol_decoder.md, "PD.READ"): baseline marked, line driven low, `Requesting`. -/
def Obligations.PdReadStartsHandshake : Prop :=
  ∀ (s : State) (env : Byte) (now : Time), s.pd.present = true → s.pd.phase = .idle → TimeForward now s →
    s.pd.cooldown = false →
    exec (.pdRead env now) s = .next
      { s with lastNow := now
               response := none
               pd := { s.pd with prev := now, lineOut := false, lineDir := true, tPhase := now, phase := .requesting } }

/-- `PD.REQ_DONE` (42_protocol_decoder.md, "PD.REQ_DONE"): line released, frame and counter cleared, edges enabled,
`Listening`, `PD.prev` not marked; the delay bounds are inclusive. -/
def Obligations.PdReqDoneOpensWindow : Prop :=
  ∀ (s : State) (env : Byte) (now : Time), s.pd.present = true → s.pd.phase = .requesting → TimeForward now s →
    s.pd.tPhase.toNat + s.params.reqMinNs ≤ now.toNat → now.toNat ≤ s.pd.tPhase.toNat + s.params.reqMaxNs →
    ∃ t, exec (.pdReqDone env now) s = .next t ∧
      (∀ j, j < 5 → Memory.read t.pd.frame j = 0#8) ∧
      (∀ j, 5 ≤ j → Memory.read t.pd.frame j = Memory.read s.pd.frame j) ∧
      t = { s with lastNow := now, response := none,
                   pd := { s.pd with lineDir := false, frame := t.pd.frame, ec := 0, irqEn := true, tPhase := now,
                                     phase := .listening } }

/-- 42_protocol_decoder.md R179: an edge outside the listen window is masked and changes nothing. -/
def Obligations.PdEdgeOutsideWindowMasked : Prop :=
  ∀ (s : State) (env : Byte) (now : Time), Inv s → s.pd.present = true → TimeForward now s →
    s.pd.phase = .idle ∨ s.pd.phase = .requesting →
    s.pd.irqEn = false ∧ exec (.pdEdge env now) s = .next { s with lastNow := now, response := none }

/-- A delivered `PD.EDGE` (42_protocol_decoder.md, "PD.EDGE"; 20_memory.md section 3): it marks and counts; frame bit
`n = ec - 2` is set by a pulse of more than 100 microseconds inside the bit window; every other frame bit and every byte
outside the frame reads as before; nothing else changes. -/
def Obligations.PdEdgeDecodesOneBit : Prop :=
  ∀ (s : State) (env : Byte) (now : Time), s.pd.present = true → TimeForward now s → s.pd.irqEn = true →
    ∃ t, exec (.pdEdge env now) s = .next t ∧
      (∀ n, n < 40 → frameBitAt t.pd.frame n =
        (frameBitAt s.pd.frame n || decide (s.pd.ec = n + 2 ∧ 100 < (now - s.pd.prev).toNat / 1000))) ∧
      (∀ j, 5 ≤ j → Memory.read t.pd.frame j = Memory.read s.pd.frame j) ∧
      t = { s with lastNow := now, response := none,
                   pd := { s.pd with prev := now, frame := t.pd.frame, ec := s.pd.ec + 1 } }

/-- 30_encoding.md R91: the bit is 1 exactly for a delta of 101000 ns or more. -/
def Obligations.PulseIsOneFromThreshold : Prop :=
  ∀ delta : Time, (pulseBit delta = true ↔ 100 < delta.toNat / 1000) ∧ (pulseBit delta = true ↔ 101000 ≤ delta.toNat)

/-- 42_protocol_decoder.md R185, and "Checksum check": a wrong edge count, and a wrong checksum, end the window in a frame-fault;
notifications are off, the sequencer is `Idle`, the cooldown flag, the frame and the counter are as they were. -/
def Obligations.PdListenDoneFrameFault : Prop :=
  ∀ (s : State) (env : Byte) (now : Time), s.pd.present = true → s.pd.phase = .listening → TimeForward now s →
    s.pd.tPhase.toNat + s.params.listenMinNs ≤ now.toNat → now.toNat ≤ s.pd.tPhase.toNat + s.params.listenMaxNs →
    s.pd.ec ≠ 42 ∨
      ((Memory.read s.pd.frame 0).toNat + (Memory.read s.pd.frame 1).toNat + (Memory.read s.pd.frame 2).toNat +
        (Memory.read s.pd.frame 3).toNat) % 256 ≠ (Memory.read s.pd.frame 4).toNat →
    exec (.pdListenDone env now) s = .next { s with lastNow := now, response := some ⟨.pd, .errIo, []⟩,
                                                    pd := { s.pd with irqEn := false, phase := .idle } }

/-- `PD.LISTEN_DONE` on a valid frame (42_protocol_decoder.md, "PD.LISTEN_DONE"; 30_encoding.md "Operand assembly (PD
fields)" and "PD text result"): the cooldown is set, and the fields are delivered unless `copy_fail`. -/
def Obligations.PdListenDoneReportsFields : Prop :=
  ∀ (s : State) (env : Byte) (now : Time), s.pd.present = true → s.pd.phase = .listening → TimeForward now s →
    s.pd.tPhase.toNat + s.params.listenMinNs ≤ now.toNat → now.toNat ≤ s.pd.tPhase.toNat + s.params.listenMaxNs →
    s.pd.ec = 42 →
    ((Memory.read s.pd.frame 0).toNat + (Memory.read s.pd.frame 1).toNat + (Memory.read s.pd.frame 2).toNat +
      (Memory.read s.pd.frame 3).toNat) % 256 = (Memory.read s.pd.frame 4).toNat →
    let humidity := 256 * (Memory.read s.pd.frame 0).toNat + (Memory.read s.pd.frame 1).toNat
    let magnitude := 256 * ((Memory.read s.pd.frame 2).toNat % 128) + (Memory.read s.pd.frame 3).toNat
    let sign := if 128 ≤ (Memory.read s.pd.frame 2).toNat ∧ magnitude ≠ 0 then [0x2D#8] else []
    exec (.pdListenDone env now) s = .next
      { s with lastNow := now
               response := some (if env.getLsbD 0 then ⟨.pd, .errCopy, []⟩
                 else ⟨.pd, .okData, [0x68#8, 0x3D#8] ++ dec humidity ++ [0x20#8, 0x74#8, 0x3D#8] ++ sign ++
                   dec magnitude ++ [0x0A#8]⟩)
               pd := { s.pd with irqEn := false, phase := .idle, cooldown := true } }

/-- 30_encoding.md R94 and 42_protocol_decoder.md R192: the fields of a frame, in arithmetic. -/
def Obligations.FrameFieldsAreBigEndian : Prop :=
  ∀ f : Frame, f.humidity = 256 * f.b0.toNat + f.b1.toNat ∧ f.humidity ≤ 65535 ∧
    f.magnitude = 256 * (f.b2.toNat % 128) + f.b3.toNat ∧ f.magnitude ≤ 32767 ∧
    (f.temperature = if f.b2.getLsbD 7 then -(f.magnitude : Int) else (f.magnitude : Int)) ∧
    -32767 ≤ f.temperature ∧ f.temperature ≤ 32767 ∧
    (f.b2 = 0x80#8 → f.b3 = 0x00#8 → decInt f.temperature = [0x30#8]) ∧
    (f.b2 = 0xFF#8 → f.b3 = 0xFF#8 → f.temperature = -32767)

/-- The checksum check (42_protocol_decoder.md, "PD.LISTEN_DONE"): when a frame is valid; one flipped bit of a valid frame
is always caught; the all-zero frame of 42 edges passes and reads "h=0 t=0" and a newline. -/
def Obligations.ChecksumCatchesEveryFlippedBit : Prop :=
  (∀ s : State, frameValid s = true ↔ s.pd.ec = 42 ∧ (loadFrame s.pd.frame).checksumOk = true) ∧
  (∀ (f : Frame) (b : Nat), b < 8 → f.checksumOk = true →
    ({ f with b0 := f.b0 ^^^ (1#8 <<< b) } : Frame).checksumOk = false ∧
    ({ f with b1 := f.b1 ^^^ (1#8 <<< b) } : Frame).checksumOk = false ∧
    ({ f with b2 := f.b2 ^^^ (1#8 <<< b) } : Frame).checksumOk = false ∧
    ({ f with b3 := f.b3 ^^^ (1#8 <<< b) } : Frame).checksumOk = false ∧
    ({ f with b4 := f.b4 ^^^ (1#8 <<< b) } : Frame).checksumOk = false) ∧
  (∀ f : Frame, f = ⟨0, 0, 0, 0, 0⟩ → f.checksumOk = true ∧
    pdText f.humidity f.temperature = [0x68#8, 0x3D#8, 0x30#8, 0x20#8, 0x74#8, 0x3D#8, 0x30#8, 0x0A#8])

/-- 42_protocol_decoder.md R170: over all operations, the only transitions of `PD.phase` are those of the table, from a
state that meets the invariant, each with its condition and its answer. -/
def Obligations.SequencerHasNoOtherTransition : Prop :=
  ∀ (i : Instr) (s t : State), Inv s → exec i s = .next t →
    t.pd.phase = (match i with
      | .pdRead _ _ => if s.pd.cooldown then .idle else .requesting
      | .pdReqDone _ _ => .listening
      | .pdListenDone _ _ => .idle
      | _ => s.pd.phase) ∧
    (∀ env now, i = .pdRead env now → s.pd.phase = .idle ∧
      (s.pd.cooldown = true → t.response = some ⟨.pd, .okEmpty, []⟩)) ∧
    (∀ env now, i = .pdReqDone env now → s.pd.phase = .requesting ∧
      Elapsed s.params.reqMinNs s.params.reqMaxNs s.pd.tPhase now) ∧
    (∀ env now, i = .pdListenDone env now → s.pd.phase = .listening ∧
      Elapsed s.params.listenMinNs s.params.listenMaxNs s.pd.tPhase now ∧
      ∃ r, t.response = some r ∧ (r.status = .okData ∨ r.status = .errIo ∨ r.status = .errCopy))

/-- The cooldown flag (10_state.md "PD.cooldown"; 42_protocol_decoder.md, properties, item 2): a set flag outlives every
operation but `PD.READ`, which clears it and answers empty; the read after that starts a handshake. -/
def Obligations.SuccessThenExactlyOneEmptyRead : Prop :=
  (∀ (i : Instr) (s t : State), Inv s → s.pd.cooldown = true → exec i s = .next t →
    (∀ env now, i ≠ .pdRead env now) → t.pd.cooldown = true) ∧
  (∀ (s : State) (env env' : Byte) (now now' : Time), Inv s → s.pd.cooldown = true → TimeForward now s →
    now.toNat ≤ now'.toNat →
    ∃ t u, exec (.pdRead env now) s = .next t ∧ t.response = some ⟨.pd, .okEmpty, []⟩ ∧
      exec (.pdRead env' now') t = .next u ∧ u.response = none ∧ u.pd.phase = .requesting)

/-- The round trip (42_protocol_decoder.md, properties, item 1; 30_encoding.md "Frame on the wire"): 42 delivered edges
whose pulses spell a frame with a correct checksum, in a fresh listen window, are answered with its fields; the next read
is empty. The other operations of unit FC cannot interfere (`UnitsAreIndependent`). -/
def Obligations.FrameRoundTrip : Prop :=
  ∀ (s : State) (f : Frame) (ts : List Time) (close next : Time),
    s.pd.present = true → s.pd.phase = .listening → s.pd.irqEn = true → s.pd.ec = 0 →
    (∀ j, j < 5 → Memory.read s.pd.frame j = 0#8) →
    ts.length = 42 → (s.lastNow.toNat :: ts.map BitVec.toNat ++ [close.toNat, next.toNat]).Pairwise (· ≤ ·) →
    (∀ n, n < 40 →
      (wireBit f n = true ↔ 100 < ((ts.getD (n + 2) 0).toNat - (ts.getD (n + 1) 0).toNat) / 1000)) →
    (f.b0.toNat + f.b1.toNat + f.b2.toNat + f.b3.toNat) % 256 = f.b4.toNat →
    s.pd.tPhase.toNat + s.params.listenMinNs ≤ close.toNat → close.toNat ≤ s.pd.tPhase.toNat + s.params.listenMaxNs →
    ∃ t u, runOps (ts.map (fun now => .pdEdge 0 now) ++ [.pdListenDone 0 close]) s = some t ∧
      loadFrame t.pd.frame = f ∧
      t.response = some ⟨.pd, .okData, pdText f.humidity f.temperature⟩ ∧
      exec (.pdRead 0 next) t = .next u ∧ u.response = some ⟨.pd, .okEmpty, []⟩

/-- The result of a listen window depends on the deltas of its edges 2 to 41 and on nothing else the producer does
(42_protocol_decoder.md, properties, item 4): two runs of one fresh window, with any other operations among the edges and
any times of edges 0 and 1 and from 42 on, leave the same frame and the same count and are answered alike; more than 42
edges are answered with a frame-fault. -/
def Obligations.ResultDependsOnBitDeltasOnly : Prop :=
  ∀ (s t t' : State) (ops ops' : List Instr) (env : Byte) (now now' : Time),
    s.pd.present = true → s.pd.phase = .listening → s.pd.irqEn = true → s.pd.ec = 0 →
    (∀ i ∈ ops, i.op ≠ 0x15#8) → (∀ i ∈ ops', i.op ≠ 0x15#8) →
    runOps ops s = some t → runOps ops' s = some t' → SameBitDeltas (edgeTimes ops) (edgeTimes ops') →
    Enabled (.pdListenDone env now) t → Enabled (.pdListenDone env now') t' →
    (∀ j, Memory.read t.pd.frame j = Memory.read t'.pd.frame j) ∧ t.pd.ec = (edgeTimes ops).length ∧
    t'.pd.ec = t.pd.ec ∧
    ∃ u u', exec (.pdListenDone env now) t = .next u ∧ exec (.pdListenDone env now') t' = .next u' ∧
      u.response = u'.response ∧ (42 < (edgeTimes ops).length → u.response = some ⟨.pd, .errIo, []⟩)

/-- Data comes from a valid frame only, and one read at most is unanswered (42_protocol_decoder.md, properties, items 3 and
5): an answer of unit PD with text has 42 edges and a matching checksum behind it; along every run the reads started are
the reads answered and the one, if any, in flight. -/
def Obligations.DataFromValidFramesAndOneReadInFlight : Prop :=
  (∀ (i : Instr) (s t : State) (text : List Byte), exec i s = .next t → t.response = some ⟨.pd, .okData, text⟩ →
    (∃ env now, i = .pdListenDone env now) ∧ s.pd.ec = 42 ∧
    ((Memory.read s.pd.frame 0).toNat + (Memory.read s.pd.frame 1).toNat + (Memory.read s.pd.frame 2).toNat +
      (Memory.read s.pd.frame 3).toNat) % 256 = (Memory.read s.pd.frame 4).toNat) ∧
  ∀ (ops : List Instr) (s t : State), Inv s → runOps ops s = some t →
    readsInFlight s + countOps startsRead ops s = countOps answersRead ops s + readsInFlight t ∧ readsInFlight t ≤ 1

/-- A handshake holds its caller between the sums of the lower and of the upper bounds (70_reset_and_hazards.md,
"Blocking"), whatever operations of either unit arrive in it: `during` any but the `PD.REQ_DONE` that ends the request
pulse, `window` any but the `PD.LISTEN_DONE` that ends the listen window. And no operation but `PD.INIT`, `PD.READ`,
`PD.REQ_DONE` and `PD.LISTEN_DONE` moves the phase or its time. -/
def Obligations.HandshakeDurationBounded : Prop :=
  (∀ (s a a' b b' c : State) (during window : List Instr) (e0 e1 e2 : Byte) (n0 n1 n2 : Time), s.pd.cooldown = false →
    exec (.pdRead e0 n0) s = .next a →
    (∀ i ∈ during, i.op ≠ 0x14#8) → runOps during a = some a' → exec (.pdReqDone e1 n1) a' = .next b →
    (∀ i ∈ window, i.op ≠ 0x15#8) → runOps window b = some b' → exec (.pdListenDone e2 n2) b' = .next c →
    n0.toNat + (s.params.reqMinNs + s.params.listenMinNs) ≤ n2.toNat ∧
    n2.toNat ≤ n0.toNat + (s.params.reqMaxNs + s.params.listenMaxNs)) ∧
  ∀ (i : Instr) (s t : State), exec i s = .next t → i.op ∉ [0x10#8, 0x12#8, 0x14#8, 0x15#8] →
    t.pd.phase = s.pd.phase ∧ t.pd.tPhase = s.pd.tPhase

/-- 10_state.md R28: which operations write the edge counter, and with what; and a counter that saturates at any value of
43 or more cannot be told from the unbounded one: every operation is refused, faults or answers alike, and the states
stay equal up to the saturation. The parameter `EC_SAT` is such a value: the two tests made on the counter give on what
an implementation may hold what they give on the counter. -/
def Obligations.SaturatingEdgeCounterUnobservable : Prop :=
  State.reset.pd.ec = 0 ∧
  (∀ (i : Instr) (s t : State), exec i s = .next t →
    t.pd.ec = (match i with
      | .pdEdge _ _ => if s.pd.irqEn then s.pd.ec + 1 else s.pd.ec
      | .pdReqDone _ _ => 0
      | .pdInit env _ => if env &&& 7#8 = 0#8 then 0 else s.pd.ec
      | _ => s.pd.ec)) ∧
  (∀ s : State, s.params.wf → inBitWindow (heldEdgeCount s) = inBitWindow s.pd.ec ∧
    (heldEdgeCount s = Config.frameEdges ↔ s.pd.ec = Config.frameEdges)) ∧
  ∀ (n : Nat) (i : Instr) (s : State), 43 ≤ n →
    let sat := fun x : State => { x with pd := { x.pd with ec := min x.pd.ec n } }
    (∀ t, exec i s = .next t → ∃ t', exec i (sat s) = .next t' ∧ sat t' = sat t) ∧
    (∀ r, exec i s = .refused r → exec i (sat s) = .refused r) ∧
    (∀ r, exec i s = .fault r → exec i (sat s) = .fault r)

/-! ### System operations -/

/-- `FC.INIT` with no fault answered (43_system_ops.md, "Initialisation"): configuration latched, capture state at its
reset values, present, `OK_INIT`; from a state that meets the invariant the capture state was there already. -/
def Obligations.FcInitLatchesConfiguration : Prop :=
  ∀ (s : State) (env : Byte) (now : Time), s.fc.present = false → TimeForward now s → env &&& 7#8 = 0#8 →
    ∃ t, exec (.fcInit env now) s = .next t ∧
      (∀ i, i < s.params.ringCap → Memory.read t.fc.ring i = 0#64) ∧
      (∀ i, s.params.ringCap ≤ i → Memory.read t.fc.ring i = Memory.read s.fc.ring i) ∧
      t = { s with lastNow := now, response := some ⟨.fc, .okInit, []⟩,
                   fc := { present := true, pin := s.inputs.fcPin, minFreq := s.inputs.fcMinFreq,
                           maxFreq := s.inputs.fcMaxFreq, prev := 0, ring := t.fc.ring, widx := 0, irqEn := true } } ∧
      (Inv s → t.fc = { s.fc with present := true, pin := s.inputs.fcPin, minFreq := s.inputs.fcMinFreq,
                                  maxFreq := s.inputs.fcMaxFreq })

/-- `PD.INIT` with no fault answered (43_system_ops.md, "Initialisation"). -/
def Obligations.PdInitLatchesConfiguration : Prop :=
  ∀ (s : State) (env : Byte) (now : Time), s.pd.present = false → TimeForward now s → env &&& 7#8 = 0#8 →
    ∃ t, exec (.pdInit env now) s = .next t ∧
      (∀ j, j < 5 → Memory.read t.pd.frame j = 0#8) ∧
      (∀ j, 5 ≤ j → Memory.read t.pd.frame j = Memory.read s.pd.frame j) ∧
      t = { s with lastNow := now, response := some ⟨.pd, .okInit, []⟩,
                   pd := { present := true, pin := s.inputs.pdPin, prev := 0, frame := t.pd.frame, ec := 0,
                           cooldown := false, irqEn := false, phase := .idle, tPhase := 0, lineDir := false,
                           lineOut := false } } ∧
      (Inv s → t.pd = { s.pd with present := true, pin := s.inputs.pdPin })

/-- 60_exceptions.md R234: any of the three initialisation faults leaves the unit absent and everything as it was, with
status `ERR_INIT`. -/
def Obligations.InitFaultChangesNothing : Prop :=
  (∀ (s : State) (env : Byte) (now : Time), s.fc.present = false → TimeForward now s →
    env.getLsbD 0 = true ∨ env.getLsbD 1 = true ∨ env.getLsbD 2 = true →
    exec (.fcInit env now) s = .next { s with lastNow := now, response := some ⟨.fc, .errInit, []⟩ }) ∧
  (∀ (s : State) (env : Byte) (now : Time), s.pd.present = false → TimeForward now s →
    env.getLsbD 0 = true ∨ env.getLsbD 1 = true ∨ env.getLsbD 2 = true →
    exec (.pdInit env now) s = .next { s with lastNow := now, response := some ⟨.pd, .errInit, []⟩ })

/-- 60_exceptions.md R232, 43_system_ops.md R220: a write is always rejected, in every phase, and touches no state. -/
def Obligations.WritesAlwaysRejected : Prop :=
  (∀ (s : State) (env : Byte) (now : Time), s.fc.present = true → TimeForward now s →
    exec (.fcWrite env now) s = .next { s with lastNow := now, response := some ⟨.fc, .errInval, []⟩ }) ∧
  (∀ (s : State) (env : Byte) (now : Time), s.pd.present = true → TimeForward now s →
    exec (.pdWrite env now) s = .next { s with lastNow := now, response := some ⟨.pd, .errInval, []⟩ })

/-! ### Whole-machine rules -/

/-- 30_encoding.md R105: which operations answer; `PD.READ` answers `OK_EMPTY` on the cooldown, and otherwise leaves its
caller waiting for the record of `PD.LISTEN_DONE`. -/
def Obligations.WhichOperationsAnswer : Prop :=
  ∀ (i : Instr) (s t : State), exec i s = .next t →
    t.response.isSome = (match i with
      | .fcEdge _ _ => false
      | .pdEdge _ _ => false
      | .pdReqDone _ _ => false
      | .pdRead _ _ => s.pd.cooldown
      | _ => true) ∧
    (∀ env now, i = .pdRead env now → if s.pd.cooldown then t.response = some ⟨.pd, .okEmpty, []⟩
      else t.pd.phase = .requesting) ∧
    (∀ env now, i = .pdListenDone env now → ∃ r, t.response = some r ∧ r.unit = .pd)

/-- 30_encoding.md R104: the codes, which operation produces each status, and how much text it carries; the reserved codes
are never produced. -/
def Obligations.StatusCodesAndTheirProducers : Prop :=
  Status.okData.code = 0x0#4 ∧ Status.okEmpty.code = 0x1#4 ∧ Status.errIo.code = 0x2#4 ∧ Status.errInval.code = 0x3#4 ∧
  Status.errCopy.code = 0x4#4 ∧ Status.errInit.code = 0x5#4 ∧ Status.okInit.code = 0x6#4 ∧
  (∀ st : Status, st.code.toNat < 7) ∧
  ∀ (i : Instr) (s t : State) (r : Response), exec i s = .next t → t.response = some r →
    r.unit = unitOf i ∧ ResponseWf r ∧
    match i with
    | .fcInit _ _ => r.status = .okInit ∨ r.status = .errInit
    | .fcEdge _ _ => False
    | .fcRead _ _ => r.status = .okData ∨ r.status = .okEmpty ∨ r.status = .errCopy
    | .fcWrite _ _ => r.status = .errInval
    | .pdInit _ _ => r.status = .okInit ∨ r.status = .errInit
    | .pdEdge _ _ => False
    | .pdRead _ _ => r.status = .okEmpty
    | .pdWrite _ _ => r.status = .errInval
    | .pdReqDone _ _ => False
    | .pdListenDone _ _ => r.status = .okData ∨ r.status = .errIo ∨ r.status = .errCopy

/-- 30_encoding.md R103: every response record, its three fields as bytes, at most 17 text bytes, text only with
`OK_DATA`. -/
def Obligations.ResponseRecordForm : Prop :=
  ∀ (i : Instr) (s t : State) (r : Response), exec i s = .next t → t.response = some r →
    ResponseWf r ∧ r.bytes = (r.unit.code ++ r.status.code) :: BitVec.ofNat 8 r.text.length :: r.text ∧
    (BitVec.ofNat 8 r.text.length).toNat = r.text.length ∧ UnitId.fc.code = 0#4 ∧ UnitId.pd.code = 1#4

/-- 00_scope.md R19: `dec` spells the number, in digits, with no leading zero; a negative number is `-` and the spelling
of its negation. -/
def Obligations.DecimalTextSpellsTheNumber : Prop :=
  (∀ n : Nat, (dec n).foldl (fun v b => 10 * v + (b.toNat - 0x30)) 0 = n ∧
    (∀ b ∈ dec n, 0x30 ≤ b.toNat ∧ b.toNat ≤ 0x39) ∧ (n ≠ 0 → (dec n).head? ≠ some 0x30#8) ∧ dec 0 = [0x30#8]) ∧
  ∀ n : Nat, decInt (n : Int) = dec n ∧ (n ≠ 0 → decInt (-(n : Int)) = 0x2D#8 :: dec n)

/-- 60_exceptions.md R241: who writes each mask, with what value, and its value at rest. -/
def Obligations.MasksWrittenOnlyByTheirOperations : Prop :=
  (∀ (i : Instr) (s t : State), exec i s = .next t →
    t.fc.irqEn = (match i with
      | .fcRead _ _ => true
      | .fcInit env _ => if env &&& 7#8 = 0#8 then true else s.fc.irqEn
      | _ => s.fc.irqEn) ∧
    t.pd.irqEn = (match i with
      | .pdReqDone _ _ => true
      | .pdListenDone _ _ => false
      | .pdInit env _ => if env &&& 7#8 = 0#8 then false else s.pd.irqEn
      | _ => s.pd.irqEn)) ∧
  ∀ s : State, Inv s → s.fc.irqEn = true ∧ (Quiescent s → s.pd.irqEn = false)

/-- The configuration is fixed at initialisation (10_state.md section 4): no operation changes the configuration of a
present unit, a successful INIT latches the inputs, and nothing changes the inputs or the parameters (log 6, log 7). -/
def Obligations.ConfigurationImmutableAfterInit : Prop :=
  ∀ (i : Instr) (s t : State), exec i s = .next t →
    t.inputs = s.inputs ∧ t.params = s.params ∧
    (s.fc.present = true → t.fc.present = true ∧ t.fc.pin = s.fc.pin ∧ t.fc.minFreq = s.fc.minFreq ∧
      t.fc.maxFreq = s.fc.maxFreq) ∧
    (s.pd.present = true → t.pd.present = true ∧ t.pd.pin = s.pd.pin) ∧
    (s.fc.present = false → t.fc.present = true → t.fc.pin = s.inputs.fcPin ∧ t.fc.minFreq = s.inputs.fcMinFreq ∧
      t.fc.maxFreq = s.inputs.fcMaxFreq) ∧
    (s.pd.present = false → t.pd.present = true → t.pd.pin = s.inputs.pdPin)

/-- The units share no state (00_scope.md section 1): an operation of one leaves the other as it was, and its effect and
answer are the same whatever the other holds. -/
def Obligations.UnitsAreIndependent : Prop :=
  (∀ (i : Instr) (s t : State), exec i s = .next t →
    (unitOf i = .fc → t.pd = s.pd) ∧ (unitOf i = .pd → t.fc = s.fc)) ∧
  (∀ (i : Instr) (s t : State) (pd : PdUnit), unitOf i = .fc → exec i s = .next t →
    exec i { s with pd := pd } = .next { t with pd := pd }) ∧
  (∀ (i : Instr) (s t : State) (fc : FcUnit), unitOf i = .pd → exec i s = .next t →
    exec i { s with fc := fc } = .next { t with fc := fc })

/-- 60_exceptions.md R244: the two notification sources do not interfere, so their order does not matter. -/
def Obligations.EdgesOfTheTwoUnitsCommute : Prop :=
  ∀ (s t u : State) (e e' : Byte) (now : Time), exec (.fcEdge e now) s = .next t → exec (.pdEdge e' now) t = .next u →
    ∃ t', exec (.pdEdge e' now) s = .next t' ∧ exec (.fcEdge e now) t' = .next u

/-- The two contexts (60_exceptions.md section 4): a producer writes its EdgeTimer value, one ring entry and the cursor,
or the frame and the edge counter; on unit FC the consumer context leaves the EdgeTimer value alone. -/
def Obligations.ContextsWriteOnlyTheirOwn : Prop :=
  (∀ (i : Instr) (s t : State), exec i s = .next t → issuer i = .fcProducer →
    t = { s with lastNow := t.lastNow, response := none,
                 fc := { s.fc with prev := t.fc.prev, ring := t.fc.ring, widx := t.fc.widx } } ∧
    ∀ j, j ≠ s.fc.widx → Memory.read t.fc.ring j = Memory.read s.fc.ring j) ∧
  (∀ (i : Instr) (s t : State), exec i s = .next t → issuer i = .pdProducer →
    t = { s with lastNow := t.lastNow, response := none,
                 pd := { s.pd with prev := t.pd.prev, frame := t.pd.frame, ec := t.pd.ec } } ∧
    ∀ j, j ≠ (s.pd.ec - 2) / 8 → Memory.read t.pd.frame j = Memory.read s.pd.frame j) ∧
  (∀ (i : Instr) (s t : State), Inv s → exec i s = .next t → (issuer i).context = .consumer → t.fc.prev = s.fc.prev)
end

