-- ==== Sys2Proof/Laws/Memory.lean ====
section
/-! SUPPORT. What the memory operations do, for any list of cells: read after write, read after zeroing, the sum of the
entries; and that each keeps the canonical form and the bound on the indices. -/

namespace Sys2Proof.Machine

variable {w : Nat}

@[simp] theorem Memory.read_nil (i : Nat) : Memory.read ([] : Memory w) i = 0 := rfl

theorem Memory.read_cons (c : Nat × BitVec w) (m : Memory w) (i : Nat) :
    Memory.read (c :: m) i = if c.1 = i then c.2 else Memory.read m i := rfl

/-! ### Reads -/

/-- Keeping only cells of some indices: those read as before, the others read 0. -/
theorem Memory.read_filter (q : Nat → Bool) (m : Memory w) (i : Nat) :
    Memory.read (m.filter (fun c => q c.1)) i = if q i then Memory.read m i else 0 := by
  induction m with
  | nil => simp
  | cons c m ih =>
    rw [List.filter_cons]
    by_cases hc : q c.1 = true
    · simp only [hc, if_true, Memory.read_cons, ih]
      by_cases hi : c.1 = i
      · subst hi; simp [hc]
      · simp [hi]
    · simp only [hc, if_false, Memory.read_cons, ih, Bool.false_eq_true]
      by_cases hi : c.1 = i
      · subst hi; simp [hc]
      · simp [hi]

theorem Memory.read_erase (m : Memory w) (i j : Nat) :
    Memory.read (Memory.erase m i) j = if j = i then 0 else Memory.read m j := by
  have h := Memory.read_filter (fun a => decide (a ≠ i)) m j
  by_cases hj : j = i <;> simpa [Memory.erase, hj] using h

theorem Memory.read_insert (m : Memory w) (i j : Nat) (v : BitVec w) (h : Memory.read m i = 0) (hm : ∀ c ∈ m, c.1 ≠ i) :
    Memory.read (Memory.insert m i v) j = if j = i then v else Memory.read m j := by
  induction m with
  | nil =>
    by_cases hj : j = i
    · subst hj; simp [Memory.insert, Memory.read_cons]
    · simp [Memory.insert, Memory.read_cons, hj, Ne.symm hj]
  | cons c m ih =>
    have hc : c.1 ≠ i := hm c (by simp)
    have h' : Memory.read m i = 0 := by simpa [Memory.read_cons, hc] using h
    have ih := ih h' (fun d hd => hm d (by simp [hd]))
    by_cases hlt : i < c.1
    · by_cases hj : j = i
      · subst hj; simp [Memory.insert, hlt, Memory.read_cons]
      · simp [Memory.insert, hlt, Memory.read_cons, hj, Ne.symm hj]
    · by_cases hj : j = i
      · subst hj; simp [Memory.insert, hlt, Memory.read_cons, hc, ih]
      · simp [Memory.insert, hlt, Memory.read_cons, ih, hj]

/-- `MemWrite` then `MemRead` (00_scope.md R15): the written entry reads the value, every other as before. -/
theorem Memory.read_write (m : Memory w) (i j : Nat) (v : BitVec w) :
    Memory.read (Memory.write m i v) j = if j = i then v else Memory.read m j := by
  unfold Memory.write
  split
  · rename_i hv; rw [Memory.read_erase]; simp [hv]
  · rw [Memory.read_insert _ _ _ _ (by simp [Memory.read_erase]) (by simp [Memory.erase])]
    by_cases hj : j = i <;> simp [Memory.read_erase, hj]

@[simp] theorem Memory.read_write_same (m : Memory w) (i : Nat) (v : BitVec w) :
    Memory.read (Memory.write m i v) i = v := by simp [Memory.read_write]

theorem Memory.read_write_other (m : Memory w) (i j : Nat) (v : BitVec w) (h : j ≠ i) :
    Memory.read (Memory.write m i v) j = Memory.read m j := by simp [Memory.read_write, h]

/-- Zeroing a range: below the bound every entry reads 0, from the bound on as before. -/
theorem Memory.read_zeroBelow (n : Nat) (m : Memory w) (i : Nat) :
    Memory.read (Memory.zeroBelow n m) i = if i < n then 0 else Memory.read m i := by
  have h := Memory.read_filter (fun a => decide (n ≤ a)) m i
  by_cases hi : i < n
  · simpa [Memory.zeroBelow, hi, Nat.not_le.mpr hi] using h
  · simpa [Memory.zeroBelow, hi, Nat.not_lt.mp hi] using h

/-! ### Canonical form and bounds -/

theorem Memory.wf_nil : Memory.wf ([] : Memory w) := ⟨List.Pairwise.nil, fun _ h => absurd h List.not_mem_nil⟩

theorem Memory.wf_filter (q : Nat × BitVec w → Bool) {m : Memory w} (h : Memory.wf m) : Memory.wf (m.filter q) :=
  ⟨h.1.filter q, fun c hc => h.2 c (List.mem_of_mem_filter hc)⟩

/-- Zeroing a range keeps the canonical form. -/
theorem Memory.wf_zeroBelow (n : Nat) {m : Memory w} (h : Memory.wf m) : Memory.wf (Memory.zeroBelow n m) :=
  Memory.wf_filter _ h

theorem Memory.wf_erase (i : Nat) {m : Memory w} (h : Memory.wf m) : Memory.wf (Memory.erase m i) :=
  Memory.wf_filter _ h

theorem Memory.mem_insert (m : Memory w) (i : Nat) (v : BitVec w) (c : Nat × BitVec w) :
    c ∈ Memory.insert m i v ↔ c = (i, v) ∨ c ∈ m := by
  induction m with
  | nil => simp [Memory.insert]
  | cons d m ih =>
    by_cases hlt : i < d.1
    · simp [Memory.insert, hlt]
    · simp only [Memory.insert, hlt, if_false, List.mem_cons, ih]; tauto

theorem Memory.wf_insert {m : Memory w} (i : Nat) {v : BitVec w} (hv : v ≠ 0) (h : Memory.wf m)
    (hm : ∀ c ∈ m, c.1 ≠ i) : Memory.wf (Memory.insert m i v) := by
  refine ⟨?_, ?_⟩
  · obtain ⟨hp, -⟩ := h
    induction m with
    | nil => simp [Memory.insert]
    | cons d m ih =>
      have hd := List.pairwise_cons.mp hp
      by_cases hlt : i < d.1
      · simp only [Memory.insert, hlt, if_true]
        refine List.pairwise_cons.mpr ⟨fun c hc => ?_, hp⟩
        rcases List.mem_cons.mp hc with rfl | hc
        · exact hlt
        · exact lt_trans hlt (hd.1 c hc)
      · simp only [Memory.insert, hlt, if_false]
        refine List.pairwise_cons.mpr ⟨fun c hc => ?_, ih (fun c hc => hm c (by simp [hc])) hd.2⟩
        rcases (Memory.mem_insert m i v c).mp hc with rfl | hc
        · have := hm d (by simp); simp only; omega
        · exact hd.1 c hc
  · intro c hc
    rcases (Memory.mem_insert m i v c).mp hc with rfl | hc
    · exact hv
    · exact h.2 c hc

/-- A write keeps the canonical form. -/
theorem Memory.wf_write {m : Memory w} (i : Nat) (v : BitVec w) (h : Memory.wf m) : Memory.wf (Memory.write m i v) := by
  unfold Memory.write
  split
  · exact Memory.wf_erase i h
  · rename_i hv
    exact Memory.wf_insert i hv (Memory.wf_erase i h) (by simp [Memory.erase])

/-- Zeroing a range lists no new index. -/
theorem Memory.index_zeroBelow {m : Memory w} {b : Nat} (n : Nat) (h : ∀ c ∈ m, c.1 < b) :
    ∀ c ∈ Memory.zeroBelow n m, c.1 < b := fun c hc => h c (List.mem_of_mem_filter hc)

/-- A write lists at most its own index anew. -/
theorem Memory.index_write {m : Memory w} {b i : Nat} (v : BitVec w) (hi : i < b) (h : ∀ c ∈ m, c.1 < b) :
    ∀ c ∈ Memory.write m i v, c.1 < b := by
  intro c hc
  unfold Memory.write at hc
  split at hc
  · exact h c (List.mem_of_mem_filter hc)
  · rcases (Memory.mem_insert _ _ _ _).mp hc with rfl | hc
    · exact hi
    · exact h c (List.mem_of_mem_filter hc)

/-- With every index below the bound, zeroing below it empties the memory. -/
theorem Memory.zeroBelow_eq_nil {m : Memory w} {n : Nat} (h : ∀ c ∈ m, c.1 < n) : Memory.zeroBelow n m = [] := by
  refine List.filter_eq_nil_iff.mpr fun c hc => ?_
  have := h c hc
  simpa using this

/-! ### The sum of the entries -/

theorem Memory.total_filter_le (q : Nat × BitVec w → Bool) (m : Memory w) :
    Memory.total (m.filter q) ≤ Memory.total m := by
  induction m with
  | nil => simp
  | cons c m ih =>
    rw [List.filter_cons]
    split <;> simp only [Memory.total] <;> omega

theorem Memory.total_insert (m : Memory w) (i : Nat) (v : BitVec w) :
    Memory.total (Memory.insert m i v) = v.toNat + Memory.total m := by
  induction m with
  | nil => simp [Memory.insert, Memory.total]
  | cons c m ih =>
    by_cases h : i < c.1
    · simp [Memory.insert, h, Memory.total]
    · simp only [Memory.insert, h, if_false, Memory.total, ih]; omega

/-- A write adds at most the value written. -/
theorem Memory.total_write_le (m : Memory w) (i : Nat) (v : BitVec w) :
    Memory.total (Memory.write m i v) ≤ Memory.total m + v.toNat := by
  have h := Memory.total_filter_le (fun c => decide (c.1 ≠ i)) m
  unfold Memory.write
  split
  · simp only [Memory.erase]; omega
  · rw [Memory.total_insert]; simp only [Memory.erase]; omega

/-- One entry is at most the sum of what is left without it and the whole: `read + total of the rest <= total`. -/
theorem Memory.read_add_total_erase_le (m : Memory w) (i : Nat) :
    (Memory.read m i).toNat + Memory.total (Memory.erase m i) ≤ Memory.total m := by
  induction m with
  | nil => simp [Memory.erase, Memory.total]
  | cons c m ih =>
    have hm := Memory.total_filter_le (fun c => decide (c.1 ≠ i)) m
    simp only [Memory.erase, ne_eq] at ih hm ⊢
    by_cases hc : c.1 = i
    · simp only [Memory.read_cons, hc, if_true, List.filter_cons, not_true, decide_false, Bool.false_eq_true,
        if_false, Memory.total]
      omega
    · simp only [Memory.read_cons, hc, if_false, List.filter_cons, not_false_eq_true, decide_true, if_true,
        Memory.total]
      omega

/-- The sum of distinct entries is at most the sum of all. -/
theorem Memory.sum_reads_le_total (idx : List Nat) (hn : idx.Nodup) (m : Memory w) :
    (idx.map fun i => (Memory.read m i).toNat).sum ≤ Memory.total m := by
  induction idx generalizing m with
  | nil => simp
  | cons i idx ih =>
    obtain ⟨hi, hn⟩ := List.nodup_cons.mp hn
    have hrest : idx.map (fun j => (Memory.read m j).toNat) =
        idx.map (fun j => (Memory.read (Memory.erase m i) j).toNat) := by
      refine List.map_congr_left fun j hj => ?_
      have : j ≠ i := fun h => hi (h ▸ hj)
      simp [Memory.read_erase, this]
    have h1 := ih hn (Memory.erase m i)
    have h2 := Memory.read_add_total_erase_le m i
    rw [List.map_cons, List.sum_cons, hrest]
    omega

end Sys2Proof.Machine
end

