-- ==== Sys2Proof/Laws/State.lean ====
section
/-! SUPPORT. Beside each named update of the state, what each field of the state is after it. -/

namespace Sys2Proof.Machine

variable (s : State)

@[simp] theorem markFc_delta (now : Time) : (markFc now s).1 = now - s.fc.prev := rfl
@[simp] theorem markPd_delta (now : Time) : (markPd now s).1 = now - s.pd.prev := rfl

/-! ### setFcIrq -/

@[simp] theorem setFcIrq_fc (b : Bool) : (setFcIrq b s).fc = { s.fc with irqEn := b } := rfl
@[simp] theorem setFcIrq_pd (b : Bool) : (setFcIrq b s).pd = s.pd := rfl
@[simp] theorem setFcIrq_params (b : Bool) : (setFcIrq b s).params = s.params := rfl
@[simp] theorem setFcIrq_inputs (b : Bool) : (setFcIrq b s).inputs = s.inputs := rfl
@[simp] theorem setFcIrq_lastNow (b : Bool) : (setFcIrq b s).lastNow = s.lastNow := rfl
@[simp] theorem setFcIrq_pending (b : Bool) : (setFcIrq b s).pending = s.pending := rfl
@[simp] theorem setFcIrq_response (b : Bool) : (setFcIrq b s).response = s.response := rfl

/-! ### setPdIrq -/

@[simp] theorem setPdIrq_fc (b : Bool) : (setPdIrq b s).fc = s.fc := rfl
@[simp] theorem setPdIrq_pd (b : Bool) : (setPdIrq b s).pd = { s.pd with irqEn := b } := rfl
@[simp] theorem setPdIrq_params (b : Bool) : (setPdIrq b s).params = s.params := rfl
@[simp] theorem setPdIrq_inputs (b : Bool) : (setPdIrq b s).inputs = s.inputs := rfl
@[simp] theorem setPdIrq_lastNow (b : Bool) : (setPdIrq b s).lastNow = s.lastNow := rfl
@[simp] theorem setPdIrq_pending (b : Bool) : (setPdIrq b s).pending = s.pending := rfl
@[simp] theorem setPdIrq_response (b : Bool) : (setPdIrq b s).response = s.response := rfl

/-! ### setCooldown -/

@[simp] theorem setCooldown_fc (b : Bool) : (setCooldown b s).fc = s.fc := rfl
@[simp] theorem setCooldown_pd (b : Bool) : (setCooldown b s).pd = { s.pd with cooldown := b } := rfl
@[simp] theorem setCooldown_params (b : Bool) : (setCooldown b s).params = s.params := rfl
@[simp] theorem setCooldown_inputs (b : Bool) : (setCooldown b s).inputs = s.inputs := rfl
@[simp] theorem setCooldown_lastNow (b : Bool) : (setCooldown b s).lastNow = s.lastNow := rfl
@[simp] theorem setCooldown_pending (b : Bool) : (setCooldown b s).pending = s.pending := rfl
@[simp] theorem setCooldown_response (b : Bool) : (setCooldown b s).response = s.response := rfl

/-! ### driveLow -/

@[simp] theorem driveLow_fc : (driveLow s).fc = s.fc := rfl
@[simp] theorem driveLow_pd : (driveLow s).pd = { s.pd with lineOut := false, lineDir := true } := rfl
@[simp] theorem driveLow_params : (driveLow s).params = s.params := rfl
@[simp] theorem driveLow_inputs : (driveLow s).inputs = s.inputs := rfl
@[simp] theorem driveLow_lastNow : (driveLow s).lastNow = s.lastNow := rfl
@[simp] theorem driveLow_pending : (driveLow s).pending = s.pending := rfl
@[simp] theorem driveLow_response : (driveLow s).response = s.response := rfl

/-! ### releaseLine -/

@[simp] theorem releaseLine_fc : (releaseLine s).fc = s.fc := rfl
@[simp] theorem releaseLine_pd : (releaseLine s).pd = { s.pd with lineDir := false } := rfl
@[simp] theorem releaseLine_params : (releaseLine s).params = s.params := rfl
@[simp] theorem releaseLine_inputs : (releaseLine s).inputs = s.inputs := rfl
@[simp] theorem releaseLine_lastNow : (releaseLine s).lastNow = s.lastNow := rfl
@[simp] theorem releaseLine_pending : (releaseLine s).pending = s.pending := rfl
@[simp] theorem releaseLine_response : (releaseLine s).response = s.response := rfl

/-! ### setPhase -/

@[simp] theorem setPhase_fc (p : Phase) : (setPhase p s).fc = s.fc := rfl
@[simp] theorem setPhase_pd (p : Phase) : (setPhase p s).pd = { s.pd with phase := p } := rfl
@[simp] theorem setPhase_params (p : Phase) : (setPhase p s).params = s.params := rfl
@[simp] theorem setPhase_inputs (p : Phase) : (setPhase p s).inputs = s.inputs := rfl
@[simp] theorem setPhase_lastNow (p : Phase) : (setPhase p s).lastNow = s.lastNow := rfl
@[simp] theorem setPhase_pending (p : Phase) : (setPhase p s).pending = s.pending := rfl
@[simp] theorem setPhase_response (p : Phase) : (setPhase p s).response = s.response := rfl

/-! ### enterPhase -/

@[simp] theorem enterPhase_fc (p : Phase) (now : Time) : (enterPhase p now s).fc = s.fc := rfl
@[simp] theorem enterPhase_pd (p : Phase) (now : Time) :
    (enterPhase p now s).pd = { s.pd with phase := p, tPhase := now } :=
  rfl
@[simp] theorem enterPhase_params (p : Phase) (now : Time) : (enterPhase p now s).params = s.params := rfl
@[simp] theorem enterPhase_inputs (p : Phase) (now : Time) : (enterPhase p now s).inputs = s.inputs := rfl
@[simp] theorem enterPhase_lastNow (p : Phase) (now : Time) : (enterPhase p now s).lastNow = s.lastNow := rfl
@[simp] theorem enterPhase_pending (p : Phase) (now : Time) : (enterPhase p now s).pending = s.pending := rfl
@[simp] theorem enterPhase_response (p : Phase) (now : Time) : (enterPhase p now s).response = s.response := rfl

/-! ### markFc -/

@[simp] theorem markFc_fc (now : Time) : (markFc now s).2.fc = { s.fc with prev := now } := rfl
@[simp] theorem markFc_pd (now : Time) : (markFc now s).2.pd = s.pd := rfl
@[simp] theorem markFc_params (now : Time) : (markFc now s).2.params = s.params := rfl
@[simp] theorem markFc_inputs (now : Time) : (markFc now s).2.inputs = s.inputs := rfl
@[simp] theorem markFc_lastNow (now : Time) : (markFc now s).2.lastNow = s.lastNow := rfl
@[simp] theorem markFc_pending (now : Time) : (markFc now s).2.pending = s.pending := rfl
@[simp] theorem markFc_response (now : Time) : (markFc now s).2.response = s.response := rfl

/-! ### markPd -/

@[simp] theorem markPd_fc (now : Time) : (markPd now s).2.fc = s.fc := rfl
@[simp] theorem markPd_pd (now : Time) : (markPd now s).2.pd = { s.pd with prev := now } := rfl
@[simp] theorem markPd_params (now : Time) : (markPd now s).2.params = s.params := rfl
@[simp] theorem markPd_inputs (now : Time) : (markPd now s).2.inputs = s.inputs := rfl
@[simp] theorem markPd_lastNow (now : Time) : (markPd now s).2.lastNow = s.lastNow := rfl
@[simp] theorem markPd_pending (now : Time) : (markPd now s).2.pending = s.pending := rfl
@[simp] theorem markPd_response (now : Time) : (markPd now s).2.response = s.response := rfl

/-! ### sample -/

@[simp] theorem sample_fc (now : Time) : (sample now s).fc = s.fc := rfl
@[simp] theorem sample_pd (now : Time) : (sample now s).pd = s.pd := rfl
@[simp] theorem sample_params (now : Time) : (sample now s).params = s.params := rfl
@[simp] theorem sample_inputs (now : Time) : (sample now s).inputs = s.inputs := rfl
@[simp] theorem sample_lastNow (now : Time) : (sample now s).lastNow = now := rfl
@[simp] theorem sample_pending (now : Time) : (sample now s).pending = s.pending := rfl
@[simp] theorem sample_response (now : Time) : (sample now s).response = none := rfl

/-! ### answer -/

@[simp] theorem answer_fc (u : UnitId) (st : Status) (text : List Byte) : (answer u st text s).fc = s.fc := rfl
@[simp] theorem answer_pd (u : UnitId) (st : Status) (text : List Byte) : (answer u st text s).pd = s.pd := rfl
@[simp] theorem answer_params (u : UnitId) (st : Status) (text : List Byte) :
    (answer u st text s).params = s.params :=
  rfl
@[simp] theorem answer_inputs (u : UnitId) (st : Status) (text : List Byte) :
    (answer u st text s).inputs = s.inputs :=
  rfl
@[simp] theorem answer_lastNow (u : UnitId) (st : Status) (text : List Byte) :
    (answer u st text s).lastNow = s.lastNow :=
  rfl
@[simp] theorem answer_pending (u : UnitId) (st : Status) (text : List Byte) :
    (answer u st text s).pending = s.pending :=
  rfl
@[simp] theorem answer_response (u : UnitId) (st : Status) (text : List Byte) :
    (answer u st text s).response = some ⟨u, st, text⟩ :=
  rfl

/-! ### raiseFault -/

@[simp] theorem raiseFault_fc (u : UnitId) (f : BlockFault) : (raiseFault u f s).fc = s.fc := rfl
@[simp] theorem raiseFault_pd (u : UnitId) (f : BlockFault) : (raiseFault u f s).pd = s.pd := rfl
@[simp] theorem raiseFault_params (u : UnitId) (f : BlockFault) : (raiseFault u f s).params = s.params := rfl
@[simp] theorem raiseFault_inputs (u : UnitId) (f : BlockFault) : (raiseFault u f s).inputs = s.inputs := rfl
@[simp] theorem raiseFault_lastNow (u : UnitId) (f : BlockFault) : (raiseFault u f s).lastNow = s.lastNow := rfl
@[simp] theorem raiseFault_pending (u : UnitId) (f : BlockFault) : (raiseFault u f s).pending = s.pending := rfl
@[simp] theorem raiseFault_response (u : UnitId) (f : BlockFault) :
    (raiseFault u f s).response = some ⟨u, f.status, []⟩ :=
  rfl

/-! ### deliver -/

@[simp] theorem deliver_fc (u : UnitId) (text : List Byte) (fails : Bool) : (deliver u text fails s).fc = s.fc :=
  by cases fails <;> rfl
@[simp] theorem deliver_pd (u : UnitId) (text : List Byte) (fails : Bool) : (deliver u text fails s).pd = s.pd :=
  by cases fails <;> rfl
@[simp] theorem deliver_params (u : UnitId) (text : List Byte) (fails : Bool) :
    (deliver u text fails s).params = s.params :=
  by cases fails <;> rfl
@[simp] theorem deliver_inputs (u : UnitId) (text : List Byte) (fails : Bool) :
    (deliver u text fails s).inputs = s.inputs :=
  by cases fails <;> rfl
@[simp] theorem deliver_lastNow (u : UnitId) (text : List Byte) (fails : Bool) :
    (deliver u text fails s).lastNow = s.lastNow :=
  by cases fails <;> rfl
@[simp] theorem deliver_pending (u : UnitId) (text : List Byte) (fails : Bool) :
    (deliver u text fails s).pending = s.pending :=
  by cases fails <;> rfl
@[simp] theorem deliver_response (u : UnitId) (text : List Byte) (fails : Bool) :
    (deliver u text fails s).response = some (if fails then ⟨u, .errCopy, []⟩ else ⟨u, .okData, text⟩) :=
  by cases fails <;> rfl

/-! ### offerFirst -/

@[simp] theorem offerFirst_fc (w : OpWord) : (offerFirst w s).fc = s.fc := rfl
@[simp] theorem offerFirst_pd (w : OpWord) : (offerFirst w s).pd = s.pd := rfl
@[simp] theorem offerFirst_params (w : OpWord) : (offerFirst w s).params = s.params := rfl
@[simp] theorem offerFirst_inputs (w : OpWord) : (offerFirst w s).inputs = s.inputs := rfl
@[simp] theorem offerFirst_lastNow (w : OpWord) : (offerFirst w s).lastNow = s.lastNow := rfl
@[simp] theorem offerFirst_pending (w : OpWord) : (offerFirst w s).pending = w :: s.pending := rfl
@[simp] theorem offerFirst_response (w : OpWord) : (offerFirst w s).response = s.response := rfl

/-! ### appendDelta -/

@[simp] theorem appendDelta_fc (d : Time) :
    (appendDelta d s).fc = { s.fc with ring := Memory.write s.fc.ring s.fc.widx d, widx := (s.fc.widx + 1) % s.params.ringCap } :=
  rfl
@[simp] theorem appendDelta_pd (d : Time) : (appendDelta d s).pd = s.pd := rfl
@[simp] theorem appendDelta_params (d : Time) : (appendDelta d s).params = s.params := rfl
@[simp] theorem appendDelta_inputs (d : Time) : (appendDelta d s).inputs = s.inputs := rfl
@[simp] theorem appendDelta_lastNow (d : Time) : (appendDelta d s).lastNow = s.lastNow := rfl
@[simp] theorem appendDelta_pending (d : Time) : (appendDelta d s).pending = s.pending := rfl
@[simp] theorem appendDelta_response (d : Time) : (appendDelta d s).response = s.response := rfl

/-! ### drainRing -/

@[simp] theorem drainRing_fc :
    (drainRing s).fc = { s.fc with ring := Memory.zeroBelow s.params.ringCap s.fc.ring, widx := 0 } :=
  rfl
@[simp] theorem drainRing_pd : (drainRing s).pd = s.pd := rfl
@[simp] theorem drainRing_params : (drainRing s).params = s.params := rfl
@[simp] theorem drainRing_inputs : (drainRing s).inputs = s.inputs := rfl
@[simp] theorem drainRing_lastNow : (drainRing s).lastNow = s.lastNow := rfl
@[simp] theorem drainRing_pending : (drainRing s).pending = s.pending := rfl
@[simp] theorem drainRing_response : (drainRing s).response = s.response := rfl

/-! ### latchFc -/

@[simp] theorem latchFc_fc :
    (latchFc s).fc = 
    ⟨true, s.inputs.fcPin, s.inputs.fcMinFreq, s.inputs.fcMaxFreq, 0, Memory.zeroBelow s.params.ringCap s.fc.ring, 0,
      true⟩ :=
  rfl
@[simp] theorem latchFc_pd : (latchFc s).pd = s.pd := rfl
@[simp] theorem latchFc_params : (latchFc s).params = s.params := rfl
@[simp] theorem latchFc_inputs : (latchFc s).inputs = s.inputs := rfl
@[simp] theorem latchFc_lastNow : (latchFc s).lastNow = s.lastNow := rfl
@[simp] theorem latchFc_pending : (latchFc s).pending = s.pending := rfl
@[simp] theorem latchFc_response : (latchFc s).response = s.response := rfl

/-! ### latchPd -/

@[simp] theorem latchPd_fc : (latchPd s).fc = s.fc := rfl
@[simp] theorem latchPd_pd :
    (latchPd s).pd = 
    ⟨true, s.inputs.pdPin, 0, Memory.zeroBelow Config.frameBytes s.pd.frame, 0, false, false, .idle, 0, false, false⟩ :=
  rfl
@[simp] theorem latchPd_params : (latchPd s).params = s.params := rfl
@[simp] theorem latchPd_inputs : (latchPd s).inputs = s.inputs := rfl
@[simp] theorem latchPd_lastNow : (latchPd s).lastNow = s.lastNow := rfl
@[simp] theorem latchPd_pending : (latchPd s).pending = s.pending := rfl
@[simp] theorem latchPd_response : (latchPd s).response = s.response := rfl

/-! ### clearFrame -/

@[simp] theorem clearFrame_fc : (clearFrame s).fc = s.fc := rfl
@[simp] theorem clearFrame_pd :
    (clearFrame s).pd = { s.pd with frame := Memory.zeroBelow Config.frameBytes s.pd.frame, ec := 0 } :=
  rfl
@[simp] theorem clearFrame_params : (clearFrame s).params = s.params := rfl
@[simp] theorem clearFrame_inputs : (clearFrame s).inputs = s.inputs := rfl
@[simp] theorem clearFrame_lastNow : (clearFrame s).lastNow = s.lastNow := rfl
@[simp] theorem clearFrame_pending : (clearFrame s).pending = s.pending := rfl
@[simp] theorem clearFrame_response : (clearFrame s).response = s.response := rfl

/-! ### setFrameBit -/

@[simp] theorem setFrameBit_fc : (setFrameBit s).fc = s.fc := rfl
@[simp] theorem setFrameBit_pd :
    (setFrameBit s).pd = { s.pd with
      frame := Memory.write s.pd.frame (frameByte s.pd.ec)
        (Memory.read s.pd.frame (frameByte s.pd.ec) ||| (1#8 <<< frameBit s.pd.ec)) } :=
  rfl
@[simp] theorem setFrameBit_params : (setFrameBit s).params = s.params := rfl
@[simp] theorem setFrameBit_inputs : (setFrameBit s).inputs = s.inputs := rfl
@[simp] theorem setFrameBit_lastNow : (setFrameBit s).lastNow = s.lastNow := rfl
@[simp] theorem setFrameBit_pending : (setFrameBit s).pending = s.pending := rfl
@[simp] theorem setFrameBit_response : (setFrameBit s).response = s.response := rfl

/-! ### decodeEdge -/

@[simp] theorem decodeEdge_fc (d : Time) : (decodeEdge d s).fc = s.fc := by unfold decodeEdge; split <;> rfl
@[simp] theorem decodeEdge_params (d : Time) : (decodeEdge d s).params = s.params :=
  by unfold decodeEdge; split <;> rfl
@[simp] theorem decodeEdge_inputs (d : Time) : (decodeEdge d s).inputs = s.inputs :=
  by unfold decodeEdge; split <;> rfl
@[simp] theorem decodeEdge_lastNow (d : Time) : (decodeEdge d s).lastNow = s.lastNow :=
  by unfold decodeEdge; split <;> rfl
@[simp] theorem decodeEdge_pending (d : Time) : (decodeEdge d s).pending = s.pending :=
  by unfold decodeEdge; split <;> rfl
@[simp] theorem decodeEdge_response (d : Time) : (decodeEdge d s).response = s.response :=
  by unfold decodeEdge; split <;> rfl

/-! ### countEdge -/

@[simp] theorem countEdge_fc : (countEdge s).fc = s.fc := rfl
@[simp] theorem countEdge_pd : (countEdge s).pd = { s.pd with ec := s.pd.ec + 1 } := rfl
@[simp] theorem countEdge_params : (countEdge s).params = s.params := rfl
@[simp] theorem countEdge_inputs : (countEdge s).inputs = s.inputs := rfl
@[simp] theorem countEdge_lastNow : (countEdge s).lastNow = s.lastNow := rfl
@[simp] theorem countEdge_pending : (countEdge s).pending = s.pending := rfl
@[simp] theorem countEdge_response : (countEdge s).response = s.response := rfl

/-! ### startHandshake -/

@[simp] theorem startHandshake_fc (now : Time) : (startHandshake now s).fc = s.fc := rfl
@[simp] theorem startHandshake_pd (now : Time) :
    (startHandshake now s).pd = { s.pd with prev := now, lineOut := false, lineDir := true, phase := .requesting, tPhase := now } :=
  rfl
@[simp] theorem startHandshake_params (now : Time) : (startHandshake now s).params = s.params := rfl
@[simp] theorem startHandshake_inputs (now : Time) : (startHandshake now s).inputs = s.inputs := rfl
@[simp] theorem startHandshake_lastNow (now : Time) : (startHandshake now s).lastNow = s.lastNow := rfl
@[simp] theorem startHandshake_pending (now : Time) : (startHandshake now s).pending = s.pending := rfl
@[simp] theorem startHandshake_response (now : Time) : (startHandshake now s).response = s.response := rfl

/-! ### reportTally -/

@[simp] theorem reportTally_fc (t : Tally) (fails : Bool) : (reportTally t fails s).fc = s.fc :=
  by
  unfold reportTally; (repeat' split) <;> simp
@[simp] theorem reportTally_pd (t : Tally) (fails : Bool) : (reportTally t fails s).pd = s.pd :=
  by
  unfold reportTally; (repeat' split) <;> simp
@[simp] theorem reportTally_params (t : Tally) (fails : Bool) : (reportTally t fails s).params = s.params :=
  by
  unfold reportTally; (repeat' split) <;> simp
@[simp] theorem reportTally_inputs (t : Tally) (fails : Bool) : (reportTally t fails s).inputs = s.inputs :=
  by
  unfold reportTally; (repeat' split) <;> simp
@[simp] theorem reportTally_lastNow (t : Tally) (fails : Bool) : (reportTally t fails s).lastNow = s.lastNow :=
  by
  unfold reportTally; (repeat' split) <;> simp
@[simp] theorem reportTally_pending (t : Tally) (fails : Bool) : (reportTally t fails s).pending = s.pending :=
  by
  unfold reportTally; (repeat' split) <;> simp

/-! ### answerFrame -/

@[simp] theorem answerFrame_fc (fails : Bool) : (answerFrame fails s).fc = s.fc :=
  by unfold answerFrame; split <;> simp_all
@[simp] theorem answerFrame_pd (fails : Bool) :
    (answerFrame fails s).pd = { s.pd with cooldown := if frameValid s then true else s.pd.cooldown } :=
  by unfold answerFrame; split <;> simp_all
@[simp] theorem answerFrame_params (fails : Bool) : (answerFrame fails s).params = s.params :=
  by unfold answerFrame; split <;> simp_all
@[simp] theorem answerFrame_inputs (fails : Bool) : (answerFrame fails s).inputs = s.inputs :=
  by unfold answerFrame; split <;> simp_all
@[simp] theorem answerFrame_lastNow (fails : Bool) : (answerFrame fails s).lastNow = s.lastNow :=
  by unfold answerFrame; split <;> simp_all
@[simp] theorem answerFrame_pending (fails : Bool) : (answerFrame fails s).pending = s.pending :=
  by unfold answerFrame; split <;> simp_all

/-! ### Equality of states -/

/-- Two states are equal when their seven fields are. -/
theorem State.eq_of_fields {a b : State} (hfc : a.fc = b.fc) (hpd : a.pd = b.pd) (hparams : a.params = b.params)
    (hinputs : a.inputs = b.inputs) (hnow : a.lastNow = b.lastNow) (hpending : a.pending = b.pending)
    (hresponse : a.response = b.response) : a = b := by
  cases a; cases b; simp_all

end Sys2Proof.Machine
end

