-- ==== Sys2Proof/Laws/Ops.lean ====
section
/-! SUPPORT. What the shared operations can do, said once: accepting an operation, its gates, taking a word, the pair
scan, the frame bits, the decimal text; and that reset's memories and every memory operation are canonical. -/

namespace Sys2Proof.Machine

/-! ### Accepting -/

/-- In time and enabled, an operation is its body on the sampled state. -/
theorem accept_ok {now : Time} {gate : Option Refusal} {s : State}
    {body : State → Host.Outcome State Fault Refusal} (hn : s.lastNow.toNat ≤ now.toNat) (hg : gate = none) :
    accept now gate s body = body (sample now s) := by
  have h : s.lastNow ≤ now := BitVec.le_def.mpr hn
  simp [accept, h, hg]

theorem accept_refused {now : Time} {gate : Option Refusal} {s : State} {r : Refusal}
    {body : State → Host.Outcome State Fault Refusal} (hn : s.lastNow.toNat ≤ now.toNat) (hg : gate = some r) :
    accept now gate s body = .refused r := by
  have h : s.lastNow ≤ now := BitVec.le_def.mpr hn
  simp [accept, h, hg]

theorem accept_early {now : Time} {gate : Option Refusal} {s : State}
    {body : State → Host.Outcome State Fault Refusal} (hn : now.toNat < s.lastNow.toNat) :
    accept now gate s body = .refused .timeDecreased := by
  have h : ¬ s.lastNow ≤ now := fun h => absurd (BitVec.le_def.mp h) (Nat.not_le.mpr hn)
  simp [accept, h]

/-- An operation that answers a next state was in time and enabled, and its body answered it. -/
theorem accept_next {now : Time} {gate : Option Refusal} {s t : State}
    {body : State → Host.Outcome State Fault Refusal} (h : accept now gate s body = .next t) :
    s.lastNow.toNat ≤ now.toNat ∧ gate = none ∧ body (sample now s) = .next t := by
  unfold accept at h
  split at h
  · rename_i hn
    split at h
    · exact ⟨BitVec.le_def.mp hn, rfl, h⟩
    · cases h
  · cases h

/-- A refusal is the time's, or the gate's, where the body never refuses. -/
theorem accept_refusal {now : Time} {gate : Option Refusal} {s : State} {r : Refusal}
    {body : State → Host.Outcome State Fault Refusal} (hb : ∀ r', body (sample now s) ≠ .refused r')
    (h : accept now gate s body = .refused r) :
    (now.toNat < s.lastNow.toNat ∧ r = .timeDecreased) ∨ (s.lastNow.toNat ≤ now.toNat ∧ gate = some r) := by
  unfold accept at h
  split at h
  · rename_i hn
    split at h
    · exact absurd h (hb r)
    · cases h; exact .inr ⟨BitVec.le_def.mp hn, rfl⟩
  · rename_i hn
    cases h
    exact .inl ⟨Nat.not_le.mp fun hc => hn (BitVec.le_def.mpr hc), rfl⟩

/-- Only the body can fault. -/
theorem accept_fault {now : Time} {gate : Option Refusal} {s : State} {f : Fault}
    {body : State → Host.Outcome State Fault Refusal} (h : accept now gate s body = .fault f) :
    s.lastNow.toNat ≤ now.toNat ∧ gate = none ∧ body (sample now s) = .fault f := by
  unfold accept at h
  split at h
  · rename_i hn
    split at h
    · exact ⟨BitVec.le_def.mp hn, rfl, h⟩
    · cases h
  · cases h

/-! ### Gates -/

theorem fcPresentGate_none (s : State) : fcPresentGate s = none ↔ s.fc.present = true := by simp [fcPresentGate]
theorem fcAbsentGate_none (s : State) : fcAbsentGate s = none ↔ s.fc.present = false := by simp [fcAbsentGate]
theorem pdPresentGate_none (s : State) : pdPresentGate s = none ↔ s.pd.present = true := by simp [pdPresentGate]
theorem pdAbsentGate_none (s : State) : pdAbsentGate s = none ↔ s.pd.present = false := by simp [pdAbsentGate]

theorem pdPhaseGate_none (p : Phase) (s : State) :
    pdPhaseGate p s = none ↔ s.pd.present = true ∧ s.pd.phase = p := by
  unfold pdPhaseGate; split <;> simp_all

theorem delayWithin_iff (lo hi : Nat) (since now : Time) :
    delayWithin lo hi since now = true ↔ since.toNat + lo ≤ now.toNat ∧ now.toNat ≤ since.toNat + hi := by
  simp [delayWithin]

/-- The delay bounds as 70_reset_and_hazards.md R281 writes them, a difference of integers. -/
theorem delayWithin_iff_elapsed (lo hi : Nat) (since now : Time) :
    delayWithin lo hi since now = true ↔ Elapsed lo hi since now := by
  rw [delayWithin_iff]; constructor <;> rintro ⟨h1, h2⟩ <;> constructor <;> omega

theorem pdDelayGate_none (p : Phase) (lo hi : Nat) (now : Time) (s : State) :
    pdDelayGate p lo hi now s = none ↔
      s.pd.present = true ∧ s.pd.phase = p ∧ delayWithin lo hi s.pd.tPhase now = true := by
  have h := pdPhaseGate_none p s
  unfold pdDelayGate
  cases hg : pdPhaseGate p s with
  | none => obtain ⟨h1, h2⟩ := h.mp hg; simp [h1, h2]
  | some r =>
    have : ¬(s.pd.present = true ∧ s.pd.phase = p) := fun hc => by simp [h.mpr hc] at hg
    simp only [reduceCtorEq, false_iff]; tauto

/-! ### Initialisation answers -/

theorem initFails_eq (env : Byte) : initFails env = (env.getLsbD 0 || env.getLsbD 1 || env.getLsbD 2) := by
  simp [initFails, pinBusy, dirFail, irqFail, Bool.or_assoc]

/-- No fault is answered exactly when the three named bits are 0. -/
theorem initFails_false_iff (env : Byte) : initFails env = false ↔ env &&& 7#8 = 0#8 := by
  rw [initFails_eq]; revert env; decide

/-! ### Taking a word -/

theorem fetch_cons {s : State} {w : OpWord} {rest : List OpWord} (h : s.pending = w :: rest) :
    fetch s = some (w, { s with pending := rest }) := by simp [fetch, h]

theorem fetch_nil {s : State} (h : s.pending = []) : fetch s = none := by simp [fetch, h]

/-- A step is idle, refuses a reserved word, or runs the oldest operation offered. -/
theorem step_cases (s : State) :
    (s.pending = [] ∧ step s = .next s) ∨
    (∃ w rest r, s.pending = w :: rest ∧ decodeWord w = .error r ∧ step s = .refused (rejectWord r)) ∨
    ∃ w rest i, s.pending = w :: rest ∧ decodeWord w = .ok i ∧ step s = exec i { s with pending := rest } := by
  cases hp : s.pending with
  | nil => exact .inl ⟨rfl, by simp [step, fetch_nil hp]⟩
  | cons w rest =>
    cases hd : decodeWord w with
    | error r => exact .inr (.inl ⟨w, rest, r, rfl, hd, by simp [step, fetch_cons hp, hd]⟩)
    | ok i => exact .inr (.inr ⟨w, rest, i, rfl, hd, by simp [step, fetch_cons hp, hd]⟩)

/-! ### The canonical form at reset -/

theorem reset_ring_wf : Memory.wf State.reset.fc.ring := Memory.wf_nil
theorem reset_frame_wf : Memory.wf State.reset.pd.frame := Memory.wf_nil

/-! ### The pair scan -/

theorem acceptsPeriod_iff (a b : Reg32) (p : Nat) :
    acceptsPeriod a b p = true ↔ p ≠ 0 ∧ a.toNat ≤ hertz p ∧ hertz p ≤ b.toNat := by
  simp [acceptsPeriod, and_assoc]

/-- Every scan counts at most its pairs, and sums at least 1 for each counted. -/
theorem scanPairs_cnt_le (a b : Reg32) (ring : Memory 64) (n : Nat) : (scanPairs a b ring n).cnt ≤ n := by
  induction n with
  | zero => simp [scanPairs]
  | succ n ih => unfold scanPairs Tally.addPeriod; split <;> (try simp only) <;> omega

theorem scanPairs_cnt_le_sum (a b : Reg32) (ring : Memory 64) (n : Nat) :
    (scanPairs a b ring n).cnt ≤ (scanPairs a b ring n).sum := by
  induction n with
  | zero => simp [scanPairs]
  | succ n ih =>
    unfold scanPairs Tally.addPeriod
    split
    · rename_i h
      have := ((acceptsPeriod_iff a b _).mp h).1
      simp only; omega
    · exact ih

/-! ### Frame bits -/

theorem inBitWindow_iff (ec : Nat) : inBitWindow ec = true ↔ 2 ≤ ec ∧ ec < 42 := by
  simp only [inBitWindow, Bool.and_eq_true, decide_eq_true_eq]
  exact Iff.rfl

/-- The byte of a frame bit is inside the frame (00_scope.md R15). -/
theorem frameByte_lt (ec : Nat) (h : inBitWindow ec = true) : frameByte ec < Config.frameBytes := by
  have := (inBitWindow_iff ec).mp h
  simp only [frameByte, Config.handshakeEdges, Config.frameBytes]; omega

/-! ### Decimal text -/

/-- With enough fuel, `decDigits` is one digit or the digits of the tens and one digit. -/
theorem decDigits_of_le (fuel n : Nat) (h : n ≤ fuel) : decDigits fuel n = dec n := by
  induction n using Nat.strong_induction_on generalizing fuel with
  | _ n ih =>
    unfold dec
    cases fuel with
    | zero => simp [Nat.le_zero.mp h]
    | succ f =>
      cases n with
      | zero => simp [decDigits]
      | succ n =>
        by_cases h10 : n + 1 < 10
        · simp [decDigits, h10]
        · have hlt : (n + 1) / 10 < n + 1 := by omega
          simp only [decDigits, h10, if_false]
          rw [ih _ hlt f (by omega), ih _ hlt n (by omega)]

/-- `dec` digit by digit. -/
theorem dec_eq (n : Nat) : dec n = if n < 10 then [digit n] else dec (n / 10) ++ [digit n] := by
  cases n with
  | zero => simp [dec, decDigits]
  | succ n =>
    by_cases h : n + 1 < 10
    · simp [dec, decDigits, h]
    · have : decDigits n ((n + 1) / 10) = dec ((n + 1) / 10) := decDigits_of_le _ _ (by omega)
      simp [dec, decDigits, h] at this ⊢
      exact this

/-- A number below `10^k`, `k` at least 1, has at most `k` digits, and every number has one. -/
theorem dec_length_le (k n : Nat) (hk : 1 ≤ k) (h : n < 10 ^ k) : (dec n).length ≤ k := by
  induction k generalizing n with
  | zero => omega
  | succ k ih =>
    rw [dec_eq]
    split
    · simp
    · rename_i h10
      have hk' : 1 ≤ k := by
        rcases Nat.eq_zero_or_pos k with rfl | hk'
        · simp at h; omega
        · exact hk'
      have : n / 10 < 10 ^ k := by rw [pow_succ] at h; omega
      have := ih (n / 10) hk' this
      simp; omega

theorem dec_length_pos (n : Nat) : 1 ≤ (dec n).length := by rw [dec_eq]; split <;> simp

end Sys2Proof.Machine
end

