-- ==== Sys2Proof/Laws/Meanings.lean ====
section
/-! SUPPORT. Each meaning inverted once: when it answers a next state, and which. A meaning that ignores `env` does not
show it: give it by name, `(env := …)`, where a goal speaks of `exec`. -/

namespace Sys2Proof.Machine

variable {env : Byte} {now : Time} {s t : State}

theorem accept_next_iff {gate : Option Refusal} {body : State → Host.Outcome State Fault Refusal} :
    accept now gate s body = .next t ↔
      s.lastNow.toNat ≤ now.toNat ∧ gate = none ∧ body (sample now s) = .next t :=
  ⟨accept_next, fun ⟨hn, hg, hb⟩ => (accept_ok hn hg).trans hb⟩

theorem execFcInit_next_iff : execFcInit env now s = .next t ↔
    s.lastNow.toNat ≤ now.toNat ∧ s.fc.present = false ∧
      t = if initFails env then raiseFault .fc .initFault (sample now s)
          else answer .fc .okInit [] (latchFc (sample now s)) := by
  unfold execFcInit
  rw [accept_next_iff, fcAbsentGate_none]
  split <;> simp [eq_comm (b := t)]

theorem execFcEdge_next_iff : execFcEdge env now s = .next t ↔
    s.lastNow.toNat ≤ now.toNat ∧ s.fc.present = true ∧
      ((s.fc.irqEn = true ∧ s.fc.widx < s.params.ringCap ∧
          t = appendDelta (now - s.fc.prev) (markFc now (sample now s)).2) ∨
        (s.fc.irqEn = false ∧ t = sample now s)) := by
  unfold execFcEdge
  rw [accept_next_iff, fcPresentGate_none]
  simp only [sample_fc, sample_params, markFc_delta]
  by_cases hi : s.fc.irqEn = true
  · by_cases hw : s.fc.widx < s.params.ringCap <;> simp [hi, hw, eq_comm (b := t)]
  · simp [hi, eq_comm (b := t)]

theorem execFcRead_next_iff : execFcRead env now s = .next t ↔
    s.lastNow.toNat ≤ now.toNat ∧ s.fc.present = true ∧
      t = reportTally (scanRing (setFcIrq false (sample now s))) (copyFail env)
        (setFcIrq true (drainRing (setFcIrq false (sample now s)))) := by
  unfold execFcRead
  rw [accept_next_iff, fcPresentGate_none]
  simp [eq_comm (b := t)]

theorem execFcWrite_next_iff : execFcWrite env now s = .next t ↔
    s.lastNow.toNat ≤ now.toNat ∧ s.fc.present = true ∧ t = raiseFault .fc .invalidArgument (sample now s) := by
  unfold execFcWrite
  rw [accept_next_iff, fcPresentGate_none]
  simp [eq_comm (b := t)]

theorem execPdInit_next_iff : execPdInit env now s = .next t ↔
    s.lastNow.toNat ≤ now.toNat ∧ s.pd.present = false ∧
      t = if initFails env then raiseFault .pd .initFault (sample now s)
          else answer .pd .okInit [] (latchPd (sample now s)) := by
  unfold execPdInit
  rw [accept_next_iff, pdAbsentGate_none]
  split <;> simp [eq_comm (b := t)]

theorem execPdEdge_next_iff : execPdEdge env now s = .next t ↔
    s.lastNow.toNat ≤ now.toNat ∧ s.pd.present = true ∧
      t = if s.pd.irqEn then countEdge (decodeEdge (now - s.pd.prev) (markPd now (sample now s)).2)
          else sample now s := by
  unfold execPdEdge
  rw [accept_next_iff, pdPresentGate_none]
  simp only [sample_pd, markPd_delta]
  split <;> rename_i h <;> simp [h, eq_comm (b := t)]

theorem execPdRead_next_iff : execPdRead env now s = .next t ↔
    s.lastNow.toNat ≤ now.toNat ∧ (s.pd.present = true ∧ s.pd.phase = .idle) ∧
      t = if s.pd.cooldown then answer .pd .okEmpty [] (setCooldown false (sample now s))
          else startHandshake now (sample now s) := by
  unfold execPdRead
  rw [accept_next_iff, pdPhaseGate_none]
  simp only [sample_pd]
  split <;> rename_i h <;> simp [h, eq_comm (b := t)]

theorem execPdWrite_next_iff : execPdWrite env now s = .next t ↔
    s.lastNow.toNat ≤ now.toNat ∧ s.pd.present = true ∧ t = raiseFault .pd .invalidArgument (sample now s) := by
  unfold execPdWrite
  rw [accept_next_iff, pdPresentGate_none]
  simp [eq_comm (b := t)]

theorem execPdReqDone_next_iff : execPdReqDone env now s = .next t ↔
    s.lastNow.toNat ≤ now.toNat ∧
      (s.pd.present = true ∧ s.pd.phase = .requesting ∧
        delayWithin s.params.reqMinNs s.params.reqMaxNs s.pd.tPhase now = true) ∧
      t = enterPhase .listening now (setPdIrq true (clearFrame (releaseLine (sample now s)))) := by
  unfold execPdReqDone
  rw [accept_next_iff, pdDelayGate_none]
  simp [eq_comm (b := t)]

theorem execPdListenDone_next_iff : execPdListenDone env now s = .next t ↔
    s.lastNow.toNat ≤ now.toNat ∧
      (s.pd.present = true ∧ s.pd.phase = .listening ∧
        delayWithin s.params.listenMinNs s.params.listenMaxNs s.pd.tPhase now = true) ∧
      t = answerFrame (copyFail env) (setPhase .idle (setPdIrq false (sample now s))) := by
  unfold execPdListenDone
  rw [accept_next_iff, pdDelayGate_none]
  simp [eq_comm (b := t)]

end Sys2Proof.Machine
end

