-- ==== Sys2Proof/Laws/PerInstr.lean ====
section
/-! SUPPORT. Family Layout: where the fields of each operation stand in its word (30_encoding.md R100, R106). -/

namespace Sys2Proof.Laws

/-- The `op`, `env` and `now` fields of an operation's word are the operation's own. -/
def Layout.Statement (i : Instr) : Prop :=
  OpWord.op (encode i) = i.op ∧ OpWord.env (encode i) = i.env ∧ OpWord.now (encode i) = i.now

/-- The three fields of a concatenated word. -/
theorem fields_of_append (op env : Byte) (now : Time) :
    OpWord.op (op ++ env ++ now) = op ∧ OpWord.env (op ++ env ++ now) = env ∧ OpWord.now (op ++ env ++ now) = now := by
  refine ⟨?_, ?_, ?_⟩ <;> apply BitVec.eq_of_getLsbD_eq <;> intro k hk <;>
    simp [OpWord.op, OpWord.env, OpWord.now, hk] <;> grind

theorem Layout.fcInit (env : Byte) (now : Time) : Layout.Statement (.fcInit env now) := fields_of_append _ _ _
theorem Layout.fcEdge (env : Byte) (now : Time) : Layout.Statement (.fcEdge env now) := fields_of_append _ _ _
theorem Layout.fcRead (env : Byte) (now : Time) : Layout.Statement (.fcRead env now) := fields_of_append _ _ _
theorem Layout.fcWrite (env : Byte) (now : Time) : Layout.Statement (.fcWrite env now) := fields_of_append _ _ _
theorem Layout.pdInit (env : Byte) (now : Time) : Layout.Statement (.pdInit env now) := fields_of_append _ _ _
theorem Layout.pdEdge (env : Byte) (now : Time) : Layout.Statement (.pdEdge env now) := fields_of_append _ _ _
theorem Layout.pdRead (env : Byte) (now : Time) : Layout.Statement (.pdRead env now) := fields_of_append _ _ _
theorem Layout.pdWrite (env : Byte) (now : Time) : Layout.Statement (.pdWrite env now) := fields_of_append _ _ _
theorem Layout.pdReqDone (env : Byte) (now : Time) : Layout.Statement (.pdReqDone env now) := fields_of_append _ _ _
theorem Layout.pdListenDone (env : Byte) (now : Time) : Layout.Statement (.pdListenDone env now) :=
  fields_of_append _ _ _

end Sys2Proof.Laws
end

