-- ==== Sys2Proof/Laws/Runs.lean ====
section
/-! SUPPORT. Runs of several operations taken apart one operation at a time, and the terms of 42_protocol_decoder.md R193
read off one operation. -/

namespace Sys2Proof.Machine

variable {i : Instr} {is : List Instr} {s t u : State}

@[simp] theorem runOps_nil : runOps [] s = some s := rfl

/-- A run of one more operation: that operation answers a next state, and the rest runs from it. -/
theorem runOps_cons_some : runOps (i :: is) s = some u ↔ ∃ t, exec i s = .next t ∧ runOps is t = some u := by
  simp only [runOps]
  split <;> simp [*]

/-- A run of two lists is a run of the first and then of the second. -/
theorem runOps_append_some {js : List Instr} :
    runOps (is ++ js) s = some u ↔ ∃ t, runOps is s = some t ∧ runOps js t = some u := by
  induction is generalizing s with
  | nil => simp
  | cons i is ih =>
    simp only [List.cons_append, runOps_cons_some, ih]
    exact ⟨fun ⟨v, hv, t, ht, hu⟩ => ⟨t, ⟨v, hv, ht⟩, hu⟩, fun ⟨t, ⟨v, hv, ht⟩, hu⟩ => ⟨v, hv, t, ht, hu⟩⟩

@[simp] theorem countOps_nil {test : Instr → State → Bool} : countOps test [] s = 0 := rfl

theorem countOps_cons {test : Instr → State → Bool} (h : exec i s = .next t) :
    countOps test (i :: is) s = (if test i t then 1 else 0) + countOps test is t := by
  simp only [countOps, h]

@[simp] theorem edgeTimes_nil : edgeTimes [] = [] := rfl

@[simp] theorem edgeTimes_cons_edge (env : Byte) (now : Time) :
    edgeTimes (.pdEdge env now :: is) = now :: edgeTimes is := rfl

theorem edgeTimes_cons_other (h : i.op ≠ 0x11#8) : edgeTimes (i :: is) = edgeTimes is := by
  simp [edgeTimes, h]

theorem readsInFlight_le_one : readsInFlight s ≤ 1 := by
  unfold readsInFlight
  split <;> decide

/-- Up to the saturation the held count is the count. -/
theorem heldEdgeCount_eq (h : s.pd.ec ≤ s.params.ecSat) : heldEdgeCount s = s.pd.ec := Nat.min_eq_left h

end Sys2Proof.Machine
end

