-- ==== Sys2Proof/Machine/Trace.lean ====
section
/-! DEFINITION. The block's "assembly language" (30_encoding.md R108, R109): trace lines read into operations, the
pseudo-operations expanded, and a whole trace played. Lines are lists of characters. What a line expects after `->` is
skipped here (log 15). -/

namespace Sys2Proof.Machine

/-! ### Pseudo-operations (30_encoding.md R109) -/

/-- An operation without environment answers, at an integer time. -/
def atTime (make : Byte → Time → Instr) (t : Nat) : Instr := make 0 (BitVec.ofNat 64 t)

/-- `FC.WAVE n d` at `t` (R109). -/
def wave (t n d : Nat) : List Instr := (List.range n).map fun k => atTime .fcEdge (t + k * d)

/-- `FC.WAVE2 n d1 d2` at `t` (R109). -/
def wave2 (t n d1 d2 : Nat) : List Instr :=
  (List.range n).map fun k => atTime .fcEdge (t + (k + 1) / 2 * d1 + k / 2 * d2)

/-- The bits of a byte in wire order, most significant first (20_memory.md R64). -/
def wireBits (b : Byte) : List Bool := (List.range 8).map fun k => b.getLsbD (7 - k)

/-- The edges of a run of frame bits: each follows the edge before it, at `t`, by the length of its pulse (R109). -/
def bitEdges (oneNs zeroNs : Nat) : List Bool → Nat → List Instr
  | [], _ => []
  | b :: bs, t => atTime .pdEdge (t + if b then oneNs else zeroNs) :: bitEdges oneNs zeroNs bs (t + if b then oneNs else zeroNs)

/-- `PD.FRAME b0 b1 b2 b3 b4` at `t` (R109). -/
def frameEdgesAt (t : Nat) (bytes : List Byte) (oneNs zeroNs : Nat) : List Instr :=
  atTime .pdEdge t :: atTime .pdEdge (t + 160000) :: bitEdges oneNs zeroNs (bytes.flatMap wireBits) (t + 160000)

/-! ### Words of a line -/

/-- Split at the characters a test picks. -/
def splitChars (sep : Char → Bool) : List Char → List (List Char)
  | [] => [[]]
  | c :: cs =>
    match splitChars sep cs with
    | [] => [[c]]
    | w :: ws => if sep c then [] :: w :: ws else (c :: w) :: ws

/-- The blank-separated words of a line before a `#` comment and before `->` (R108). -/
def lineWords (line : List Char) : List (List Char) :=
  ((splitChars (fun c => c == ' ') (line.takeWhile (fun c => c != '#'))).filter (fun w => !w.isEmpty)).takeWhile
    (fun w => w != ['-', '>'])

/-- The value of a digit. -/
def digitValue (c : Char) : Option Nat :=
  if '0' ≤ c ∧ c ≤ '9' then some (c.toNat - 48)
  else if 'a' ≤ c ∧ c ≤ 'f' then some (c.toNat - 87)
  else if 'A' ≤ c ∧ c ≤ 'F' then some (c.toNat - 55)
  else none

/-- Digits in a base, `_` skipped (00_scope.md R13, 30_encoding.md R108). -/
def readDigits (base : Nat) : List Char → Nat → Option Nat
  | [], acc => some acc
  | c :: cs, acc =>
    if c = '_' then readDigits base cs acc
    else
      match digitValue c with
      | some d => if d < base then readDigits base cs (acc * base + d) else none
      | none => none

/-- A number word: decimal, or hexadecimal after `0x`; at least one digit, and a digit first (R108). -/
def readNumber : List Char → Option Nat
  | '0' :: 'x' :: c :: cs => if c = '_' then none else readDigits 16 (c :: cs) 0
  | c :: cs => if c = '_' then none else readDigits 10 (c :: cs) 0
  | [] => none

/-- A time: a number below 2^64 (00_scope.md R12). -/
def readTime (w : List Char) : Option Nat :=
  match readNumber w with
  | some t => if t < 2 ^ 64 then some t else none
  | none => none

/-- A frame byte: two hexadecimal digits (R109). -/
def readByte : List Char → Option Byte
  | [a, b] =>
    match digitValue a, digitValue b with
    | some x, some y => some (BitVec.ofNat 8 (16 * x + y))
    | _, _ => none
  | _ => none

/-- An operation word written as 20 hexadecimal digits, `op` first (30_encoding.md R100). -/
def readHexWord (cs : List Char) : Option OpWord :=
  if cs.length = 20 ∧ '_' ∉ cs then (readDigits 16 cs 0).map (BitVec.ofNat 80) else none

/-! ### Lines (30_encoding.md R108) -/

/-- The flags of the INIT operations and their `env` bits (30_encoding.md R102). -/
def initFlags : List (List Char × Byte) :=
  [(['p', 'i', 'n', '_', 'b', 'u', 's', 'y'], 0x01), (['d', 'i', 'r', '_', 'f', 'a', 'i', 'l'], 0x02),
   (['i', 'r', 'q', '_', 'f', 'a', 'i', 'l'], 0x04)]

/-- The flag of the delivering operations and its `env` bit (30_encoding.md R102). -/
def copyFlags : List (List Char × Byte) := [(['c', 'o', 'p', 'y', '_', 'f', 'a', 'i', 'l'], 0x01)]

/-- The mnemonics with the flags each names (30_encoding.md R102, R106, R108). -/
def traceOps : List (List Char × List (List Char × Byte) × (Byte → Time → Instr)) :=
  [(['F', 'C', '.', 'I', 'N', 'I', 'T'], initFlags, .fcInit), (['F', 'C', '.', 'E', 'D', 'G', 'E'], [], .fcEdge),
   (['F', 'C', '.', 'R', 'E', 'A', 'D'], copyFlags, .fcRead), (['F', 'C', '.', 'W', 'R', 'I', 'T', 'E'], [], .fcWrite),
   (['P', 'D', '.', 'I', 'N', 'I', 'T'], initFlags, .pdInit), (['P', 'D', '.', 'E', 'D', 'G', 'E'], [], .pdEdge),
   (['P', 'D', '.', 'R', 'E', 'A', 'D'], [], .pdRead), (['P', 'D', '.', 'W', 'R', 'I', 'T', 'E'], [], .pdWrite),
   (['P', 'D', '.', 'R', 'E', 'Q', '_', 'D', 'O', 'N', 'E'], [], .pdReqDone),
   (['P', 'D', '.', 'L', 'I', 'S', 'T', 'E', 'N', '_', 'D', 'O', 'N', 'E'], copyFlags, .pdListenDone)]

/-- The `env` field a list of flags spells; an unknown flag is no line (R108). -/
def readFlags (known : List (List Char × Byte)) : List (List Char) → Byte → Option Byte
  | [], env => some env
  | w :: ws, env =>
    match known.find? (fun f => f.1 == w) with
    | some f => readFlags known ws (env ||| f.2)
    | none => none

/-- The options `one=<ns>` and `zero=<ns>` of `PD.FRAME` over the values so far (R109). -/
def readPulses : List (List Char) → Nat → Nat → Option (Nat × Nat)
  | [], oneNs, zeroNs => some (oneNs, zeroNs)
  | ('o' :: 'n' :: 'e' :: '=' :: n) :: ws, _, zeroNs =>
    match readNumber n with
    | some oneNs => readPulses ws oneNs zeroNs
    | none => none
  | ('z' :: 'e' :: 'r' :: 'o' :: '=' :: n) :: ws, oneNs, _ =>
    match readNumber n with
    | some zeroNs => readPulses ws oneNs zeroNs
    | none => none
  | _ :: _, _, _ => none

/-- The operations of `PD.FRAME` (R109): five bytes, then the options. -/
def readFrame (t : Nat) : List (List Char) → Option (List Instr)
  | w0 :: w1 :: w2 :: w3 :: w4 :: ws =>
    match readByte w0, readByte w1, readByte w2, readByte w3, readByte w4, readPulses ws 120000 76000 with
    | some b0, some b1, some b2, some b3, some b4, some (oneNs, zeroNs) =>
      some (frameEdgesAt t [b0, b1, b2, b3, b4] oneNs zeroNs)
    | _, _, _, _, _, _ => none
  | _ => none

/-- One plain operation of the table (R108). -/
def readOperation (t : Nat) (name : List Char) (flags : List (List Char)) : Option (List Instr) :=
  match traceOps.find? (fun o => o.1 == name) with
  | some o => (readFlags o.2.1 flags 0).map fun env => [o.2.2 env (BitVec.ofNat 64 t)]
  | none => none

/-- The operations after `@<now>`: a pseudo-operation expanded (R109), or one operation (R108). -/
def readMnemonic (t : Nat) (name : List Char) (args : List (List Char)) : Option (List Instr) :=
  if name = ['F', 'C', '.', 'W', 'A', 'V', 'E'] then
    match args.mapM readNumber with
    | some [n, d] => some (wave t n d)
    | _ => none
  else if name = ['F', 'C', '.', 'W', 'A', 'V', 'E', '2'] then
    match args.mapM readNumber with
    | some [n, d1, d2] => some (wave2 t n d1 d2)
    | _ => none
  else if name = ['P', 'D', '.', 'F', 'R', 'A', 'M', 'E'] then readFrame t args
  else readOperation t name args

/-- The operations a trace line stands for; none where it is no line. A blank or comment line stands for none of them
(R108). -/
def readLine (line : List Char) : Option (List Instr) :=
  match lineWords line with
  | [] => some []
  | ('@' :: t) :: name :: args =>
    match readTime t with
    | some t => readMnemonic t name args
    | none => none
  | _ => none

/-! ### Playing a trace (95_test_vectors.md Part 3) -/

/-- Play operations in order and collect the response of each. An operation that is not enabled leaves the state as it
was and answers nothing (70_reset_and_hazards.md R281), and the trace goes on, as in program P3 of the spec; time that
goes back, or a fault of the model, is no trace of the block (00_scope.md R12). -/
def playTrace : List Instr → State → Option (State × List (Option Response))
  | [], s => some (s, [])
  | i :: is, s =>
    match exec i s with
    | .next t =>
      match playTrace is t with
      | some (u, rs) => some (u, t.response :: rs)
      | none => none
    | .refused .timeDecreased => none
    | .refused _ =>
      match playTrace is s with
      | some (u, rs) => some (u, none :: rs)
      | none => none
    | .fault _ => none

end Sys2Proof.Machine
end

