-- ==== Sys2Proof/Tests/Slice0.lean ====
section
/-! SUPPORT. The model's own tests. Expected values come from 95_test_vectors.md (each test names the vector) or from the
rule named. Part 2 gives, for every obligation with hypotheses, a state and operands that meet them all. -/

namespace Sys2Proof.Tests

open Sys2Proof Sys2Proof.Machine

-- One theorem at a time: each evaluation in the kernel otherwise holds a thread while it waits for the one before.
set_option Elab.async false

/-! ### Helpers -/

/-- The next state of an outcome, if it is one. -/
def nextOf : Host.Outcome State Fault Refusal → Option State
  | .next t => some t
  | .fault _ => none
  | .refused _ => none

/-- The refusal of an outcome, if it is one. -/
def refusalOf : Host.Outcome State Fault Refusal → Option Refusal
  | .next _ => none
  | .fault _ => none
  | .refused r => some r

/-- A memory holding the given entries from index 0 on. -/
def cells (w : Nat) (entries : List Nat) : Memory w :=
  (entries.zipIdx.map (fun e => (e.2, BitVec.ofNat w e.1))).filter (fun c => decide (c.2 ≠ 0))

/-- The start state of the spec's trace programs: reset with the inputs 17, 900, 1100, 4. -/
def start : State := { State.reset with inputs := ⟨17, 900, 1100, 4⟩ }

/-- Unit FC present with window [900, 1100], the given entries, cursor and previous mark. -/
def fcAt (entries : List Nat) (widx prev : Nat) : State :=
  { start with lastNow := BitVec.ofNat 64 prev
               fc := { FcUnit.reset with present := true, pin := 17, minFreq := 900, maxFreq := 1100, widx := widx,
                                         prev := BitVec.ofNat 64 prev, ring := cells 64 entries } }

/-- Unit PD present in a phase, with the masks and the line the phase has. -/
def pdAt (phase : Phase) (ec : Nat) (bytes : List Nat) (prev tPhase : Nat) (cooldown : Bool) : State :=
  { start with lastNow := BitVec.ofNat 64 (max prev tPhase)
               pd := { PdUnit.reset with present := true, pin := 4, phase := phase, ec := ec, frame := cells 8 bytes,
                                         prev := BitVec.ofNat 64 prev, tPhase := BitVec.ofNat 64 tPhase,
                                         cooldown := cooldown, irqEn := decide (phase = .listening),
                                         lineDir := decide (phase = .requesting) } }

/-- Vector FV3a: 67 edges of a 1000 Hz wave. -/
def ring67 : State := fcAt (1000000 :: List.replicate 66 500000) 67 34000000

/-- Vector FV3c: 68 edges. -/
def ring68 : State := fcAt (1000000 :: List.replicate 67 500000) 68 34500000

/-- Vector PV1 before its `PD.LISTEN_DONE`. -/
def heard : State := pdAt .listening 42 [0x01, 0x90, 0x00, 0xFA, 0x8B] 6802000 3000000 false

/-- Vector PV1 after it. -/
def answered : State := { pdAt .idle 42 [0x01, 0x90, 0x00, 0xFA, 0x8B] 6802000 3000000 true with lastNow := 9000000 }

/-! ## Part 1. Checks of the model -/

/-! ### Well-formedness (30_encoding.md R102): an ill-formed operation for each mask -/

theorem test_wf_init : (Instr.fcInit 7 0).WellFormed ∧ ¬ (Instr.fcInit 8 0).WellFormed ∧
    (Instr.pdInit 7 0).WellFormed ∧ ¬ (Instr.pdInit 0x80 0).WellFormed := by decide

theorem test_wf_copy : (Instr.fcRead 1 0).WellFormed ∧ ¬ (Instr.fcRead 2 0).WellFormed ∧
    (Instr.pdListenDone 1 0).WellFormed ∧ ¬ (Instr.pdListenDone 4 0).WellFormed := by decide

theorem test_wf_none : (Instr.fcEdge 0 0).WellFormed ∧ ¬ (Instr.fcEdge 0xFF 5).WellFormed ∧
    ¬ (Instr.fcWrite 1 0).WellFormed ∧ ¬ (Instr.pdEdge 1 0).WellFormed ∧ ¬ (Instr.pdRead 1 0).WellFormed ∧
    ¬ (Instr.pdWrite 1 0).WellFormed ∧ ¬ (Instr.pdReqDone 1 0).WellFormed := by decide

/-! ### Decoding and encoding: words of 95_test_vectors.md, in both directions -/

/-- P0, P1, FV15, SV5, SV10, SV14: unit FC. -/
theorem test_decode_fc :
    decodeTableWord 80 0x00070000000000000000 = some (.fcInit 7 0) ∧
    decodeTableWord 80 0x010000000000000F4240 = some (.fcEdge 0 1000000) ∧
    decodeTableWord 80 0x01FF0000000000000005 = some (.fcEdge 0xFF 5) ∧
    decodeTableWord 80 0x02010000000007B06240 = some (.fcRead 1 129000000) ∧
    decodeTableWord 80 0x03000000000000000123 = some (.fcWrite 0 0x123) := by decide

/-- P2, P3, P4, PV9, SV11: unit PD. -/
theorem test_decode_pd :
    decodeTableWord 80 0x10020000000000000000 = some (.pdInit 2 0) ∧
    decodeTableWord 80 0x110000000000002E3BF0 = some (.pdEdge 0 3030000) ∧
    decodeTableWord 80 0x120000000000000F4240 = some (.pdRead 0 1000000) ∧
    decodeTableWord 80 0x13000000000000500000 = some (.pdWrite 0 0x500000) ∧
    decodeTableWord 80 0x140000000000002DC6C0 = some (.pdReqDone 0 3000000) ∧
    decodeTableWord 80 0x15010000000000895440 = some (.pdListenDone 1 9000000) := by decide

/-- The same words from the encoder. -/
theorem test_encode :
    [encode (.fcInit 7 0), encode (.fcEdge 0 1000000), encode (.fcRead 1 129000000), encode (.fcWrite 0 0x123),
      encode (.pdInit 2 0), encode (.pdEdge 0 3030000), encode (.pdRead 0 1000000), encode (.pdWrite 0 0x500000),
      encode (.pdReqDone 0 3000000), encode (.pdListenDone 1 9000000)] =
    [0x00070000000000000000#80, 0x010000000000000F4240#80, 0x02010000000007B06240#80, 0x03000000000000000123#80,
      0x10020000000000000000#80, 0x110000000000002E3BF0#80, 0x120000000000000F4240#80, 0x13000000000000500000#80,
      0x140000000000002DC6C0#80, 0x15010000000000895440#80] := by decide

/-- SV12: reserved `op` values. -/
theorem test_decode_reserved :
    [0x04000000000000000000, 0x0F000000000000000000, 0x16000000000000000000, 0x20000000000000000000,
      0xFF000000000000000000].map (decodeTableWord 80) = [none, none, none, none, none] := by decide

/-- SV12: the machine refuses a reserved word by name. -/
theorem test_step_reserved :
    refusalOf (step (start.withFetchWord 80 0x16000000000000000000)) = some (.reservedOp 0x16) := by decide

/-- The first operation after reset: step runs the offered word, and takes it. -/
theorem test_step_runs : nextOf (step (State.reset.withFetchWord 80 0)) = nextOf (exec (.fcInit 0 0) State.reset) ∧
    (nextOf (exec (.fcInit 0 0) State.reset)).isSome = true := by decide +kernel

/-! ### FC -/

/-- SV1: configuration latched, present, `OK_INIT`. -/
theorem test_fcInit : nextOf (exec (.fcInit 0 0) start) =
    some { fcAt [] 0 0 with response := some ⟨.fc, .okInit, []⟩ } := by decide +kernel

/-- SV3: `dir_fail`. -/
theorem test_fcInit_fault : nextOf (exec (.fcInit 2 0) start) =
    some { start with response := some ⟨.fc, .errInit, []⟩ } := by decide +kernel

/-- 41_frequency_capture.md R141, the example: cursor 255, the delta 500 000 lands there and the cursor wraps. -/
theorem test_fcEdge_wraps : (nextOf (exec (.fcEdge 0 1500000) (fcAt [] 255 1000000))).map State.fc =
    some { (fcAt [] 0 1500000).fc with ring := [(255, 500000)] } := by decide +kernel

/-- FV14: a second edge at the same time stores a zero delta and takes a slot. -/
theorem test_fcEdge_zero : (nextOf (exec (.fcEdge 0 1000000) (fcAt [1000000] 1 1000000))).map State.fc =
    some (fcAt [1000000, 0] 2 1000000).fc := by decide +kernel

/-- FV3a: 32 accepted pairs are empty, and the ring is drained. -/
theorem test_fcRead_boundary : nextOf (exec (.fcRead 0 34100000) ring67) =
    some { fcAt [] 0 34000000 with lastNow := 34100000, response := some ⟨.fc, .okEmpty, []⟩ } := by decide +kernel

/-- FV3c: one more valid pair reports `"1000\n"`, bytes `00 05 31 30 30 30 0A`. -/
theorem test_fcRead_reports :
    ((nextOf (exec (.fcRead 0 34600000) ring68)).bind State.response).map Response.bytes =
      some [0x00, 0x05, 0x31, 0x30, 0x30, 0x30, 0x0A] := by decide +kernel

/-- SV10: a write answers `ERR_INVAL` and changes nothing. -/
theorem test_fcWrite : nextOf (exec (.fcWrite 0 0x123) (fcAt [5, 7] 2 12)) =
    some { fcAt [5, 7] 2 12 with lastNow := 0x123, response := some ⟨.fc, .errInval, []⟩ } := by decide +kernel

/-! ### PD -/

/-- SV8: present, delivery off, idle. -/
theorem test_pdInit : nextOf (exec (.pdInit 0 0) start) =
    some { pdAt .idle 0 [] 0 0 false with response := some ⟨.pd, .okInit, []⟩ } := by decide +kernel

/-- SV9: `dir_fail`, and a later operation is refused. -/
theorem test_pdInit_fault : nextOf (exec (.pdInit 2 0) start) =
    some { start with response := some ⟨.pd, .errInit, []⟩ } ∧
    refusalOf (exec (.pdRead 0 100) start) = some (.unitAbsent .pd) := by decide +kernel

/-- PV12: the start arm. -/
theorem test_pdRead_starts :
    (nextOf (exec (.pdRead 0 10000000) (pdAt .idle 42 [1, 0x90, 0, 0xFA, 0x8B] 6802000 3000000 false))).map State.pd =
      some (pdAt .requesting 42 [1, 0x90, 0, 0xFA, 0x8B] 10000000 10000000 false).pd := by decide +kernel

/-- PV11: the cooldown arm. -/
theorem test_pdRead_cooldown : nextOf (exec (.pdRead 0 9500000) answered) =
    some { answered with lastNow := 9500000, response := some ⟨.pd, .okEmpty, []⟩,
                         pd := { answered.pd with cooldown := false } } := by decide +kernel

/-- PV16: the lower bound is inclusive. -/
theorem test_pdReqDone :
    (nextOf (exec (.pdReqDone 0 2000000) (pdAt .requesting 42 [1, 2, 3] 1000000 1000000 false))).map State.pd =
      some (pdAt .listening 0 [] 1000000 2000000 false).pd := by decide +kernel

/-- PV15 and PV17: one nanosecond outside either bound. -/
theorem test_pdReqDone_outside :
    refusalOf (exec (.pdReqDone 0 1999999) (pdAt .requesting 0 [] 1000000 1000000 false)) = some .delayOutOfRange ∧
    refusalOf (exec (.pdReqDone 0 21000001) (pdAt .requesting 0 [] 1000000 1000000 false)) = some .delayOutOfRange := by
  decide +kernel

/-- PV24: the first frame bit is bit 7 of byte 0. -/
theorem test_pdEdge_first : (nextOf (exec (.pdEdge 0 3310000) (pdAt .listening 2 [] 3190000 3000000 false))).map State.pd =
    some (pdAt .listening 3 [0x80] 3310000 3000000 false).pd := by decide +kernel

/-- PV25: the last frame bit is bit 0 of byte 4. -/
theorem test_pdEdge_last :
    (nextOf (exec (.pdEdge 0 6802000) (pdAt .listening 41 [1, 0x90, 0, 0xFA, 0x8A] 6682000 3000000 false))).map State.pd =
      some (pdAt .listening 42 [1, 0x90, 0, 0xFA, 0x8B] 6802000 3000000 false).pd := by decide +kernel

/-- PV1: `"h=400 t=250\n"`, bytes `10 0C 68 3D 34 30 30 20 74 3D 32 35 30 0A`, and the cooldown is set. -/
theorem test_pdListenDone :
    ((nextOf (exec (.pdListenDone 0 9000000) heard)).bind State.response).map Response.bytes =
      some [0x10, 0x0C, 0x68, 0x3D, 0x34, 0x30, 0x30, 0x20, 0x74, 0x3D, 0x32, 0x35, 0x30, 0x0A] ∧
    (nextOf (exec (.pdListenDone 0 9000000) heard)).map State.pd = some answered.pd := by decide +kernel

/-- PV7a: the longest text, `"h=65535 t=-32767\n"`. -/
theorem test_pdListenDone_negative :
    ((nextOf (exec (.pdListenDone 0 9000000)
      (pdAt .listening 42 [0xFF, 0xFF, 0xFF, 0xFF, 0xFC] 7990000 3000000 false))).bind State.response).map
        Response.bytes =
      some [0x10, 0x11, 0x68, 0x3D, 0x36, 0x35, 0x35, 0x33, 0x35, 0x20, 0x74, 0x3D, 0x2D, 0x33, 0x32, 0x37, 0x36, 0x37,
        0x0A] := by decide +kernel

/-- SV11: a write during the listen window. -/
theorem test_pdWrite : nextOf (exec (.pdWrite 0 0x500000) (pdAt .listening 7 [1] 3000000 3000000 false)) =
    some { pdAt .listening 7 [1] 3000000 3000000 false with lastNow := 0x500000,
                                                            response := some ⟨.pd, .errInval, []⟩ } := by decide +kernel

/-! ### Trace lines (30_encoding.md R108, R109) -/

theorem test_line_operation :
    readLine "@129_000_000 FC.READ copy_fail -> FC ERR_COPY".toList = some [.fcRead 1 129000000] ∧
    readLine "@0x123 FC.WRITE # a comment".toList = some [.fcWrite 0 0x123] ∧
    readLine "@0 PD.INIT dir_fail irq_fail".toList = some [.pdInit 6 0] ∧
    readLine "# only a comment".toList = some [] ∧ readLine "@5 PD.READ copy_fail".toList = none ∧
    readLine "@5 FC.SEND".toList = none ∧ readLine "FC.EDGE".toList = none := by decide +kernel

/-- The times of R109, and the first and last edge of P4's frame line. -/
theorem test_line_pseudo :
    readLine "@10 FC.WAVE 3 5".toList = some [.fcEdge 0 10, .fcEdge 0 15, .fcEdge 0 20] ∧
    readLine "@10 FC.WAVE2 4 1 2".toList = some [.fcEdge 0 10, .fcEdge 0 11, .fcEdge 0 13, .fcEdge 0 14] ∧
    ((readLine "@6_010_000 PD.FRAME 00 00 80 00 80 one=101_000 zero=100_999".toList).map fun l =>
      (l.length, l.head?, l.getLast?)) = some (42, some (.pdEdge 0 6010000), some (.pdEdge 0 10209962)) := by
  decide +kernel

/-- P0, the whole of it: only the INIT and the read answer, and the read is empty. -/
theorem test_trace_p0 :
    (playTrace [.fcInit 0 0, .fcEdge 0 1000000, .fcEdge 0 1500000, .fcEdge 0 1500000, .fcRead 0 2000000] start).map
      (fun r => (r.1.fc, r.2)) =
    some ((fcAt [] 0 1500000).fc,
      [some ⟨.fc, .okInit, []⟩, none, none, none, some ⟨.fc, .okEmpty, []⟩]) := by decide +kernel

/-- The codes of the phases and of the units (10_state.md R31, 30_encoding.md R103). -/
theorem test_codes : [Phase.idle, Phase.requesting, Phase.listening].map Phase.code = [0#2, 1#2, 2#2] ∧
    [UnitId.fc, UnitId.pd].map UnitId.code = [0#4, 1#4] ∧
    [BlockFault.frameFault, .invalidArgument, .copyFault, .initFault].map BlockFault.status =
      [.errIo, .errInval, .errCopy, .errInit] := by decide

/-- 00_scope.md R19 and 42_protocol_decoder.md R192. -/
theorem test_dec : decInt 250 = [0x32, 0x35, 0x30] ∧ decInt (-101) = [0x2D, 0x31, 0x30, 0x31] ∧ decInt 0 = [0x30] := by
  decide +kernel

/-! ## Part 2. Witnesses: every obligation with hypotheses has them met -/

/-- Each operation with an enabling state. -/
def enabledPairs : List (Instr × State) :=
  [(.fcInit 0 0, start), (.fcEdge 0 34100000, ring67), (.fcRead 0 34100000, ring67), (.fcWrite 0 34100000, ring67),
    (.pdInit 0 0, start), (.pdEdge 0 6902000, heard), (.pdRead 0 9500000, answered), (.pdWrite 0 6902000, heard),
    (.pdReqDone 0 2000000, pdAt .requesting 0 [] 1000000 1000000 false), (.pdListenDone 0 9000000, heard)]

theorem test_wit_DecodeEncodeAgree : decodeWord 0x010000000000000F4240#80 = .ok (.fcEdge 0 1000000) := rfl

theorem test_wit_ReservedWordsRefused :
    (start.withFetchWord 80 0xFF000000000000000000).pending = [0xFF000000000000000000#80] ∧
    (0xFF000000000000000000#80).extractLsb' 72 8 ∉
      [0x00#8, 0x01#8, 0x02#8, 0x03#8, 0x10#8, 0x11#8, 0x12#8, 0x13#8, 0x14#8, 0x15#8] := by decide

theorem test_wit_StepRunsOfferedOperation :
    (start.withFetchWord 80 0x10020000000000000000).pending = [0x10020000000000000000#80] ∧
    decodeWord 0x10020000000000000000#80 = .ok (.pdInit 2 0) := ⟨by decide, rfl⟩

theorem test_wit_NothingOffered : State.reset.pending = [] := rfl

/-- Masked edges: FC outside the invariant, PD between two handshakes. -/
theorem test_wit_Refused_masked :
    (Enabled (.fcEdge 0 5) (setFcIrq false (fcAt [] 0 0)) ∧ (setFcIrq false (fcAt [] 0 0)).fc.irqEn = false) ∧
    (Enabled (.pdEdge 0 1000) (pdAt .idle 0 [] 0 0 false) ∧ (pdAt .idle 0 [] 0 0 false).pd.irqEn = false) := by
  decide +kernel

theorem test_wit_EnabledOperationsComplete : (∀ p ∈ enabledPairs, Inv p.2) ∧
    Enabled (.fcInit 0 0) start ∧ Enabled (.fcEdge 0 34100000) ring67 ∧ Enabled (.fcRead 0 34100000) ring67 ∧
    Enabled (.fcWrite 0 34100000) ring67 ∧ Enabled (.pdInit 0 0) start ∧ Enabled (.pdEdge 0 6902000) heard ∧
    Enabled (.pdRead 0 9500000) answered ∧ Enabled (.pdWrite 0 6902000) heard ∧
    Enabled (.pdReqDone 0 2000000) (pdAt .requesting 0 [] 1000000 1000000 false) ∧
    Enabled (.pdListenDone 0 9000000) heard := by
  simp only [Enabled, UnitReady]
  refine ⟨?_, ?_, ?_, ?_, ?_, ?_, ?_, ?_, ?_, ?_, ?_⟩ <;> decide +kernel

theorem test_wit_TimeNeverDecreases :
    (Instr.fcEdge 0 1499999).now.toNat < (fcAt [] 0 1500000).lastNow.toNat ∧
    (nextOf (exec (.fcEdge 0 1500000) (fcAt [] 0 1500000))).isSome = true := by decide +kernel

theorem test_wit_AbsentUnit : start.fc.present = false ∧ start.pd.present = false ∧ TimeForward 5 start := by
  decide +kernel

theorem test_wit_Init : (fcAt [] 0 0).fc.present = true ∧ TimeForward 200 (fcAt [] 0 0) ∧
    (pdAt .idle 0 [] 0 0 false).pd.present = true ∧ TimeForward 200 (pdAt .idle 0 [] 0 0 false) ∧
    start.fc.present = false ∧ start.pd.present = false ∧ TimeForward 0 start ∧ (1#8 &&& 7#8 ≠ 0#8) ∧
    (0#64).toNat ≤ (100#64).toNat ∧ (0#8 &&& 7#8 = 0#8) := by decide +kernel

theorem test_wit_SecondRead : ∀ p ∈ [Phase.requesting, Phase.listening],
    (pdAt p 0 [] 1000000 1000000 false).pd.present = true ∧ (pdAt p 0 [] 1000000 1000000 false).pd.phase ≠ .idle ∧
    TimeForward 2000000 (pdAt p 0 [] 1000000 1000000 false) := by decide +kernel

/-- A step from a state that meets the invariant, for each operation. -/
theorem test_wit_StepKeepsMachineInvariant : ∀ p ∈ enabledPairs,
    Inv (offerFirst (encode p.1) p.2) ∧ (nextOf (step (offerFirst (encode p.1) p.2))).isSome = true := by decide +kernel

theorem test_wit_NoIndexOutsideTheRing : Inv (fcAt [] 255 1000000) := by decide +kernel

theorem test_wit_MarkNeverBorrows : Inv heard ∧ TimeForward 6802000 heard := by decide +kernel

/-- Each operation answers a next state: the hypothesis of the whole-machine rules. -/
theorem test_wit_next : ∀ p ∈ enabledPairs, (nextOf (exec p.1 p.2)).isSome = true := by decide +kernel

/-- The arms the whole-machine rules tell apart: a masked PD edge, a started handshake, a failed INIT. -/
theorem test_wit_next_arms : ∀ p ∈ [(Instr.pdEdge 0 1000, pdAt .idle 0 [] 0 0 false),
    (.pdRead 0 1000, pdAt .idle 0 [] 0 0 false), (.fcInit 1 0, start), (.pdInit 4 0, start)],
    (nextOf (exec p.1 p.2)).isSome = true := by decide +kernel

theorem test_wit_FcEdge : (fcAt [] 255 1000000).fc.present = true ∧ TimeForward 1000000 (fcAt [] 255 1000000) ∧
    (fcAt [] 255 1000000).fc.irqEn = true ∧ (fcAt [] 255 1000000).fc.widx < (fcAt [] 255 1000000).params.ringCap := by
  decide +kernel

theorem test_wit_FcMaskedEdge : (setFcIrq false (fcAt [] 0 0)).fc.present = true ∧
    TimeForward 5 (setFcIrq false (fcAt [] 0 0)) ∧ (setFcIrq false (fcAt [] 0 0)).fc.irqEn = false ∧
    Inv (fcAt [] 0 0) := by decide +kernel

/-- `FC.READ`: the hypotheses, and both sides of the gate. -/
theorem test_wit_FcRead : ring67.fc.present = true ∧ TimeForward 34500000 ring67 ∧ ring67.params = Params.default ∧
    (scanRing ring67).cnt = 32 ∧ ring68.fc.present = true ∧ TimeForward 34500000 ring68 ∧
    ring68.params = Params.default ∧ (scanRing ring68).cnt = 33 := by decide +kernel

/-- Window filter: `min_freq` 1000 and 0, an empty window, an accepted period. -/
theorem test_wit_WindowFilter : 1 ≤ (1000#32).toNat ∧ (999001 : Nat) ≠ 0 ∧ acceptsPeriod 1000 1000 999001 = true ∧
    (0#32).toNat = 0 ∧ (900#32).toNat < (1100#32).toNat := by decide +kernel

theorem test_wit_ReportedFrequency : ((nextOf (exec (.fcRead 0 34600000) ring68)).bind State.response) =
    some ⟨.fc, .okData, [0x31, 0x30, 0x30, 0x30, 0x0A]⟩ := by decide +kernel

/-- Between the two reads: nothing, and operations of both units. -/
theorem test_wit_SecondReadIsEmpty :
    let ops : List Instr := [.fcWrite 0 34600000, .pdInit 0 34610000, .pdRead 0 34620000, .pdEdge 0 34630000]
    let s := (nextOf (exec (.fcRead 0 34600000) ring68)).getD State.reset
    (nextOf (exec (.fcRead 0 34600000) ring68)).isSome = true ∧ (∀ i ∈ ops, i.op ≠ 0x01#8) ∧
    (runOps ops s).isSome = true ∧ TimeForward 34640000 ((runOps ops s).getD State.reset) ∧
    (runOps [] s).isSome = true ∧ TimeForward 34600000 s := by decide +kernel

/-- Three pairs, each outside for one of the three reasons: zero, too slow, too fast. -/
theorem test_wit_OutOfRange : (fcAt [750000, 750000, 250000, 250000] 4 2000000).fc.present = true ∧
    TimeForward 2000000 (fcAt [750000, 750000, 250000, 250000] 4 2000000) ∧
    ∀ k, k < (fcAt [750000, 750000, 250000, 250000] 4 2000000).params.ringCap / 2 →
      pairPeriod (fcAt [750000, 750000, 250000, 250000] 4 2000000).fc.ring k = 0 ∨
      1000000000 / pairPeriod (fcAt [750000, 750000, 250000, 250000] 4 2000000).fc.ring k < 900 ∨
      1100 < 1000000000 / pairPeriod (fcAt [750000, 750000, 250000, 250000] 4 2000000).fc.ring k := by decide +kernel

theorem test_wit_SixtyFour (i : Nat) (hi : 64 ≤ i) :
    (fcAt [500000, 500000] 2 1000000).fc.present = true ∧ TimeForward 1000000 (fcAt [500000, 500000] 2 1000000) ∧
    (fcAt [500000, 500000] 2 1000000).params = Params.default ∧
    Memory.read (fcAt [500000, 500000] 2 1000000).fc.ring i = 0#64 := by
  refine ⟨rfl, by decide +kernel, rfl, ?_⟩
  show Memory.read [(0, 500000#64), (1, 500000#64)] i = 0#64
  have h0 : ¬ 0 = i := by omega
  have h1 : ¬ 1 = i := by omega
  simp [Memory.read, h0, h1]

theorem test_wit_RingSums : Inv ring68 ∧ [0, 1, 67].Nodup := by decide +kernel

theorem test_wit_PdRead : (answered.pd.present = true ∧ answered.pd.phase = .idle ∧ TimeForward 9500000 answered ∧
    answered.pd.cooldown = true) ∧
    ((pdAt .idle 0 [] 0 0 false).pd.present = true ∧ (pdAt .idle 0 [] 0 0 false).pd.phase = .idle ∧
      TimeForward 5 (pdAt .idle 0 [] 0 0 false) ∧ (pdAt .idle 0 [] 0 0 false).pd.cooldown = false) := by decide +kernel

/-- PV16, PV17: both bounds. -/
theorem test_wit_PdReqDone :
    let s := pdAt .requesting 0 [] 1000000 1000000 false
    s.pd.present = true ∧ s.pd.phase = .requesting ∧ TimeForward 2000000 s ∧ TimeForward 21000000 s ∧
    s.pd.tPhase.toNat + s.params.reqMinNs ≤ 2000000 ∧ 21000000 ≤ s.pd.tPhase.toNat + s.params.reqMaxNs ∧
    (2000000#64).toNat = 2000000 ∧ (21000000#64).toNat = 21000000 := by decide +kernel

/-- PV21: both phases. -/
theorem test_wit_PdEdgeMasked : ∀ p ∈ [Phase.idle, Phase.requesting],
    Inv (pdAt p 0 [] 1000000 1000000 false) ∧ (pdAt p 0 [] 1000000 1000000 false).pd.present = true ∧
    TimeForward 1000000 (pdAt p 0 [] 1000000 1000000 false) ∧
    ((pdAt p 0 [] 1000000 1000000 false).pd.phase = .idle ∨
      (pdAt p 0 [] 1000000 1000000 false).pd.phase = .requesting) := by decide +kernel

/-- The edges around the ends of the bit window. -/
theorem test_wit_PdEdge : ∀ ec ∈ [0, 1, 2, 41, 42], (pdAt .listening ec [] 3190000 3000000 false).pd.present = true ∧
    TimeForward 3310000 (pdAt .listening ec [] 3190000 3000000 false) ∧
    (pdAt .listening ec [] 3190000 3000000 false).pd.irqEn = true := by decide +kernel

/-- The hypotheses every statement about `PD.LISTEN_DONE` shares. -/
abbrev Closes (s : State) (now : Nat) : Prop :=
  s.pd.present = true ∧ s.pd.phase = .listening ∧ TimeForward (BitVec.ofNat 64 now) s ∧
    s.pd.tPhase.toNat + s.params.listenMinNs ≤ now ∧ now ≤ s.pd.tPhase.toNat + s.params.listenMaxNs

/-- The checksum relation of a frame buffer. -/
abbrev SumMatches (m : Memory 8) : Prop :=
  ((Memory.read m 0).toNat + (Memory.read m 1).toNat + (Memory.read m 2).toNat + (Memory.read m 3).toNat) % 256 =
    (Memory.read m 4).toNat

/-- The window may close at both bounds (PV18). -/
theorem test_wit_PdListenDone_bounds : Closes heard 8000000 ∧ Closes heard 13000000 := by decide +kernel

/-- A wrong count on either side (41 and 43 edges), and a wrong checksum with the right count (PV2a). -/
theorem test_wit_PdFrameFault :
    (∀ ec ∈ [41, 43], Closes (pdAt .listening ec [1, 0x90, 0, 0xFA, 0x8B] 6802000 3000000 false) 9000000 ∧
      (pdAt .listening ec [1, 0x90, 0, 0xFA, 0x8B] 6802000 3000000 false).pd.ec ≠ 42) ∧
    Closes (pdAt .listening 42 [1, 0x90, 0, 0xFB, 0x8B] 6802000 3000000 false) 9000000 ∧
    ¬ SumMatches (pdAt .listening 42 [1, 0x90, 0, 0xFB, 0x8B] 6802000 3000000 false).pd.frame := by decide +kernel

/-- A valid frame (PV1), and one with the sign bit (PV4). -/
theorem test_wit_PdFields : ∀ f ∈ [[0x01, 0x90, 0x00, 0xFA, 0x8B], [0x02, 0x8C, 0x80, 0x65, 0x73]],
    Closes (pdAt .listening 42 f 6802000 3000000 false) 9000000 ∧
    (pdAt .listening 42 f 6802000 3000000 false).pd.ec = 42 ∧
    SumMatches (pdAt .listening 42 f 6802000 3000000 false).pd.frame := by decide +kernel

theorem test_wit_FrameFields : (⟨0, 0, 0x80, 0x00, 0x80⟩ : Frame).b2 = 0x80#8 ∧
    (⟨0, 0, 0xFF, 0xFF, 0xFE⟩ : Frame).b2 = 0xFF#8 := by decide

theorem test_wit_Checksum : (⟨0x01, 0x90, 0x00, 0xFA, 0x8B⟩ : Frame).checksumOk = true ∧
    (⟨0, 0, 0, 0, 0⟩ : Frame).checksumOk = true := by decide

theorem test_wit_Sequencer : ∀ p ∈ enabledPairs, Inv p.2 ∧ (nextOf (exec p.1 p.2)).isSome = true := by decide +kernel

theorem test_wit_OneEmptyRead : Inv answered ∧ answered.pd.cooldown = true ∧ TimeForward 9500000 answered ∧
    (nextOf (exec (.pdWrite 0 9100000) answered)).isSome = true ∧ (9500000#64).toNat ≤ (10000000#64).toNat := by
  decide +kernel

/-- The 42 edge times of P2's frame. -/
def p2Times : List Time := (frameEdgesAt 3030000 [0x01, 0x90, 0x00, 0xFA, 0x8B] 120000 76000).map Instr.now

/-- P2: a fresh window, the 42 edges, the close and the next read. -/
theorem test_wit_FrameRoundTrip :
    let s := pdAt .listening 0 [] 1000000 3000000 false
    let f : Frame := ⟨0x01, 0x90, 0x00, 0xFA, 0x8B⟩
    s.pd.present = true ∧ s.pd.phase = .listening ∧ s.pd.irqEn = true ∧ s.pd.ec = 0 ∧
    (∀ j, j < 5 → Memory.read s.pd.frame j = 0#8) ∧ p2Times.length = 42 ∧
    (s.lastNow.toNat :: p2Times.map BitVec.toNat ++ [9000000, 9500000]).Pairwise (· ≤ ·) ∧
    (∀ n, n < 40 → (wireBit f n = true ↔
      100 < ((p2Times.getD (n + 2) 0).toNat - (p2Times.getD (n + 1) 0).toNat) / 1000)) ∧
    (f.b0.toNat + f.b1.toNat + f.b2.toNat + f.b3.toNat) % 256 = f.b4.toNat ∧
    s.pd.tPhase.toNat + s.params.listenMinNs ≤ 9000000 ∧ 9000000 ≤ s.pd.tPhase.toNat + s.params.listenMaxNs := by
  decide +kernel

/-- Two windows of P2's frame: in the second an `FC.WRITE` stands first and edges 0 and 1 come at other times. -/
theorem test_wit_ResultDependsOnBitDeltasOnly :
    let s := { pdAt .listening 0 [] 1000000 3000000 false with fc := (fcAt [] 0 0).fc }
    let ops : List Instr := p2Times.map (fun now => .pdEdge 0 now)
    let ops' : List Instr := [.fcWrite 0 3000000, .pdEdge 0 3000000] ++ (ops.drop 1)
    let t := (runOps ops s).getD State.reset
    let t' := (runOps ops' s).getD State.reset
    s.pd.present = true ∧ s.pd.phase = .listening ∧ s.pd.irqEn = true ∧ s.pd.ec = 0 ∧
    (∀ i ∈ ops, i.op ≠ 0x15#8) ∧ (∀ i ∈ ops', i.op ≠ 0x15#8) ∧ runOps ops s = some t ∧ runOps ops' s = some t' ∧
    edgeTimes ops ≠ edgeTimes ops' ∧ (edgeTimes ops).length = (edgeTimes ops').length ∧
    (∀ k, k < 42 → 2 ≤ k → (edgeTimes ops).getD k 0 - (edgeTimes ops).getD (k - 1) 0 =
      (edgeTimes ops').getD k 0 - (edgeTimes ops').getD (k - 1) 0) ∧
    (t.pd.present = true ∧ t.pd.phase = .listening ∧ TimeForward 9000000 t ∧ t.pd.tPhase = 3000000#64) ∧
    (t'.pd.present = true ∧ t'.pd.phase = .listening ∧ TimeForward 9100000 t' ∧ t'.pd.tPhase = 3000000#64) := by
  decide +kernel

/-- One edge more than a frame has: the last clause of the same statement. -/
theorem test_wit_TooManyEdges :
    let s := pdAt .listening 0 [] 1000000 3000000 false
    let ops : List Instr := (p2Times ++ [7000000]).map (fun now => .pdEdge 0 now)
    42 < (edgeTimes ops).length ∧ (runOps ops s).isSome = true ∧
    Closes ((runOps ops s).getD State.reset) 9000000 := by decide +kernel

/-- A data answer of PD, and a run in which two reads start and one is answered. -/
theorem test_wit_DataFromValidFrames :
    ((nextOf (exec (.pdListenDone 0 9000000) heard)).bind State.response).map Response.status = some .okData ∧
    (let ops : List Instr := [.pdRead 0 1000, .pdReqDone 0 1001000, .pdListenDone 0 6001000, .pdRead 0 6001000]
     Inv (pdAt .idle 0 [] 0 0 false) ∧ (runOps ops (pdAt .idle 0 [] 0 0 false)).isSome = true ∧
     countOps startsRead ops (pdAt .idle 0 [] 0 0 false) = 2 ∧
     countOps answersRead ops (pdAt .idle 0 [] 0 0 false) = 1) := by decide +kernel

/-- A handshake at its lower bounds, with a masked edge and a write in the pulse and an edge in the window; and one of
the operations that leave the phase alone. -/
theorem test_wit_Handshake :
    let s := pdAt .idle 0 [] 0 0 false
    let during : List Instr := [.pdEdge 0 500000, .pdWrite 0 600000]
    let window : List Instr := [.pdEdge 0 2000000]
    s.pd.cooldown = false ∧ (∀ i ∈ during, i.op ≠ 0x14#8) ∧ (∀ i ∈ window, i.op ≠ 0x15#8) ∧
    (runOps ([.pdRead 0 1000] ++ during ++ [.pdReqDone 0 1001000] ++ window ++ [.pdListenDone 0 6001000]) s).isSome =
      true ∧
    (nextOf (exec (.pdWrite 0 600000) s)).isSome = true ∧
    (Instr.pdWrite 0 600000).op ∉ [0x10#8, 0x12#8, 0x14#8, 0x15#8] := by
  decide +kernel

/-- A counter past the saturation: a next state, a refusal, and the fault of the model. -/
theorem test_wit_Saturating : Params.default.wf ∧ 43 ≤ Params.default.ecSat ∧
    heldEdgeCount (pdAt .listening 99 [] 6802000 3000000 false) = 63 ∧
    (nextOf (exec (.pdListenDone 0 9000000) (pdAt .listening 99 [] 6802000 3000000 false))).isSome = true ∧
    (refusalOf (exec (.pdRead 0 9000000) (pdAt .listening 99 [] 6802000 3000000 false))).isSome = true ∧
    refusalOf (exec (.fcEdge 0 5) (fcAt [] 256 0)) = none ∧ nextOf (exec (.fcEdge 0 5) (fcAt [] 256 0)) = none := by
  decide +kernel

theorem test_wit_InitLatches : start.fc.present = false ∧ start.pd.present = false ∧ TimeForward 0 start ∧
    (0x08#8 &&& 7#8 = 0#8) ∧ Inv start := by decide +kernel

/-- Each of the three answers alone. -/
theorem test_wit_InitFault : (0x01#8).getLsbD 0 = true ∧ (0x02#8).getLsbD 1 = true ∧ (0x04#8).getLsbD 2 = true ∧
    start.fc.present = false ∧ start.pd.present = false ∧ TimeForward 0 start := by decide +kernel

theorem test_wit_Writes : (fcAt [] 0 0).fc.present = true ∧ TimeForward 5 (fcAt [] 0 0) ∧ heard.pd.present = true ∧
    TimeForward 8000000 heard := by decide +kernel

/-- Responses of every status but `OK_DATA` of PD, each from a next state. -/
theorem test_wit_Responses :
    ([(Instr.fcInit 0 0, start), (.fcInit 1 0, start), (.fcRead 0 34100000, ring67), (.fcRead 0 34600000, ring68),
      (.fcRead 1 34600000, ring68), (.fcWrite 0 34600000, ring68),
      (.pdListenDone 0 9000000, pdAt .listening 0 [] 1000000 3000000 false)].map
        fun p => ((nextOf (exec p.1 p.2)).bind State.response).map Response.status) =
    [some .okInit, some .errInit, some .okEmpty, some .okData, some .errCopy, some .errInval, some .errIo] := by
  decide +kernel

theorem test_wit_Masks : Inv answered ∧ Quiescent answered := by decide +kernel

/-- Both units present, both edges delivered at one time. -/
theorem test_wit_EdgesCommute :
    let s := { heard with fc := (fcAt [5] 1 5).fc }
    (nextOf (exec (.fcEdge 0 6900000) s)).isSome = true ∧
    ((nextOf (exec (.fcEdge 0 6900000) s)).bind fun t => nextOf (exec (.pdEdge 0 6900000) t)).isSome = true := by
  decide +kernel

theorem test_wit_Units : unitOf (.fcEdge 0 0) = .fc ∧ unitOf (.pdEdge 0 0) = .pd ∧
    issuer (.fcEdge 0 0) = .fcProducer ∧ issuer (.pdEdge 0 0) = .pdProducer ∧
    (issuer (.pdReqDone 0 0)).context = .consumer := by decide

end Sys2Proof.Tests
end

section
/-! 00_scope.md R18: the width of the sums over the sample ring. -/

namespace Sys2Proof.Machine

/-- The entries of the ring are parts of the time up to the operation before (10_state.md R41 item 6). -/
theorem ring_total_le_lastNow {s : State} (h : Inv s) : Memory.total s.fc.ring ≤ s.lastNow.toNat := by
  obtain ⟨-, ⟨-, -, -, -, htotal, hprev⟩, -⟩ := h
  exact htotal.trans hprev

theorem pairPeriod_le_total (ring : Memory 64) (k : Nat) : pairPeriod ring k ≤ Memory.total ring := by
  have h := Memory.sum_reads_le_total [2 * k, 2 * k + 1] (by simp) ring
  simpa [pairPeriod] using h

/-- The first `n` pairs are the first `2n` entries, and a filtered sum is at most the whole. -/
theorem scanPairs_sum_le_sum_reads (minFreq maxFreq : Reg32) (ring : Memory 64) (n : Nat) :
    (scanPairs minFreq maxFreq ring n).sum ≤ ((List.range (2 * n)).map fun i => (Memory.read ring i).toNat).sum := by
  induction n with
  | zero => simp [scanPairs]
  | succ n ih =>
    have hreads : ((List.range (2 * (n + 1))).map fun i => (Memory.read ring i).toNat).sum =
        ((List.range (2 * n)).map fun i => (Memory.read ring i).toNat).sum + pairPeriod ring n := by
      simp [Nat.mul_succ, List.range_succ, pairPeriod]
    rw [hreads, scanPairs, Tally.addPeriod]
    split
    · exact Nat.add_le_add_right ih _
    · exact ih.trans (Nat.le_add_right _ _)

theorem scanPairs_sum_le_total (minFreq maxFreq : Reg32) (ring : Memory 64) (n : Nat) :
    (scanPairs minFreq maxFreq ring n).sum ≤ Memory.total ring :=
  (scanPairs_sum_le_sum_reads minFreq maxFreq ring n).trans (Memory.sum_reads_le_total _ List.nodup_range ring)

/-- Settles O30: every sum is over distinct entries, so at most their total, and the total is at most a 64-bit time. -/
theorem ringSumsFitInSixtyFourBits : Obligations.RingSumsFitInSixtyFourBits := by
  intro s hs
  have htotal := ring_total_le_lastNow hs
  have hfit : Memory.total s.fc.ring < 2 ^ 64 := htotal.trans_lt s.lastNow.isLt
  have hsum n := (scanPairs_sum_le_total s.fc.minFreq s.fc.maxFreq s.fc.ring n).trans_lt hfit
  refine ⟨fun idx hidx => ?entries, fun k => ?period, hsum, fun n => ?candidate, fun n => ?mean, ?count, rfl⟩
  case entries => exact (Memory.sum_reads_le_total idx hidx s.fc.ring).trans htotal
  case period => exact (pairPeriod_le_total s.fc.ring k).trans_lt hfit
  case candidate => exact (Nat.div_le_self _ _).trans_lt (by decide)
  case mean => exact (Nat.div_le_self _ _).trans_lt (hsum n)
  case count => exact scanPairs_cnt_le _ _ _ _

end Sys2Proof.Machine
end

section
/-! 00_scope.md R19: the decimal text of a number. -/

namespace Sys2Proof.Machine

@[simp] theorem digit_toNat (n : Nat) : (digit n).toNat = 0x30 + n % 10 := by
  simp only [digit, BitVec.toNat_ofNat]; omega

theorem dec_ne_nil (n : Nat) : dec n ≠ [] := List.length_pos_iff.mp (dec_length_pos n)

/-- Induction along the digits: a number below ten is one digit, any other the text of its tens and one digit. -/
theorem dec_induction {P : Nat → List Byte → Prop} (single : ∀ n, n < 10 → P n [digit n])
    (snoc : ∀ n, 10 ≤ n → P (n / 10) (dec (n / 10)) → P n (dec (n / 10) ++ [digit n])) (n : Nat) : P n (dec n) := by
  induction n using Nat.strong_induction_on with
  | _ n ih =>
    rw [dec_eq]
    split
    case isTrue hn => exact single n hn
    case isFalse hn => exact snoc n (by omega) (ih (n / 10) (by omega))

theorem dec_foldl (n : Nat) : (dec n).foldl (fun v b => 10 * v + (b.toNat - 0x30)) 0 = n := by
  induction n using dec_induction with
  | single n hn => simp; omega
  | snoc n hn ih => simp only [List.foldl_append, ih, List.foldl_cons, List.foldl_nil, digit_toNat]; omega

theorem dec_bytes_are_digits (n : Nat) : ∀ b ∈ dec n, 0x30 ≤ b.toNat ∧ b.toNat ≤ 0x39 := by
  have hdigit (m : Nat) : 0x30 ≤ (digit m).toNat ∧ (digit m).toNat ≤ 0x39 := by rw [digit_toNat]; omega
  induction n using dec_induction with
  | single n hn => simpa using hdigit n
  | snoc n hn ih =>
    intro b hb
    rcases List.mem_append.mp hb with htens | hunit
    · exact ih b htens
    · exact List.mem_singleton.mp hunit ▸ hdigit n

theorem digit_ne_zero {n : Nat} (h : n % 10 ≠ 0) : digit n ≠ 0x30#8 := fun heq =>
  h (by simpa using congrArg BitVec.toNat heq)

/-- The first digit is that of the last non-zero quotient by ten. -/
theorem dec_no_leading_zero (n : Nat) : n ≠ 0 → (dec n).head? ≠ some 0x30#8 := by
  induction n using dec_induction with
  | single n hn =>
    intro h0
    simpa using digit_ne_zero (n := n) (by omega)
  | snoc n hn ih =>
    intro _
    rw [List.head?_append_of_ne_nil _ (dec_ne_nil (n / 10))]
    exact ih (by omega)

theorem decInt_natCast (n : Nat) : decInt (n : Int) = dec n := by
  have hn : ¬ (n : Int) < 0 := by omega
  rw [decInt, if_neg hn, Int.natAbs_natCast]

theorem decInt_neg_natCast {n : Nat} (h : n ≠ 0) : decInt (-(n : Int)) = 0x2D#8 :: dec n := by
  have hn : -(n : Int) < 0 := by omega
  rw [decInt, if_pos hn, Int.natAbs_neg, Int.natAbs_natCast]

/-- Settles O55, by induction along the digits of `dec`. -/
theorem decimalTextSpellsTheNumber : Obligations.DecimalTextSpellsTheNumber :=
  ⟨fun n => ⟨dec_foldl n, dec_bytes_are_digits n, dec_no_leading_zero n, rfl⟩,
    fun n => ⟨decInt_natCast n, decInt_neg_natCast⟩⟩

end Sys2Proof.Machine
end

section
/-! 10_state.md R40: the values after reset. -/

namespace Sys2Proof.Machine

/-- Settles O12, field by field; both memories start with no cell listed. -/
theorem resetValues : Obligations.ResetValues :=
  ⟨rfl, rfl, rfl, Memory.read_nil, rfl, rfl, rfl, Memory.read_nil, rfl, rfl, rfl, rfl, rfl, rfl, rfl⟩

end Sys2Proof.Machine
end

section
/-! 10_state.md R28: the edge counter, and an edge counter that saturates. -/

namespace Sys2Proof.Machine

variable {n : Nat} {i : Instr} {env : Byte} {now : Time} {s t : State}

/-! ### Who writes the edge counter -/

/-- What an operation that answers a next state leaves in the edge counter (10_state.md R28). -/
def edgeCountAfter (i : Instr) (s : State) : Nat :=
  match i with
  | .pdEdge _ _ => if s.pd.irqEn then s.pd.ec + 1 else s.pd.ec
  | .pdReqDone _ _ => 0
  | .pdInit env _ => if env &&& 7#8 = 0#8 then 0 else s.pd.ec
  | _ => s.pd.ec

@[simp] theorem decodeEdge_ec (delta : Time) (s : State) : (decodeEdge delta s).pd.ec = s.pd.ec := by
  unfold decodeEdge
  split <;> rfl

theorem exec_next_ec (h : exec i s = .next t) : t.pd.ec = edgeCountAfter i s := by
  cases i with
  | fcInit env now =>
    obtain ⟨-, -, rfl⟩ := execFcInit_next_iff.mp h
    split <;> rfl
  | fcEdge env now =>
    obtain ⟨-, -, ⟨-, -, rfl⟩ | ⟨-, rfl⟩⟩ := (execFcEdge_next_iff (env := env)).mp h <;> rfl
  | fcRead env now =>
    obtain ⟨-, -, rfl⟩ := execFcRead_next_iff.mp h
    simp [edgeCountAfter]
  | fcWrite env now =>
    obtain ⟨-, -, rfl⟩ := (execFcWrite_next_iff (env := env)).mp h
    rfl
  | pdInit env now =>
    obtain ⟨-, -, rfl⟩ := execPdInit_next_iff.mp h
    simp only [edgeCountAfter, ← initFails_false_iff]
    cases initFails env <;> rfl
  | pdEdge env now =>
    obtain ⟨-, -, rfl⟩ := (execPdEdge_next_iff (env := env)).mp h
    simp only [edgeCountAfter]
    split <;> simp
  | pdRead env now =>
    obtain ⟨-, -, rfl⟩ := (execPdRead_next_iff (env := env)).mp h
    split <;> rfl
  | pdWrite env now =>
    obtain ⟨-, -, rfl⟩ := (execPdWrite_next_iff (env := env)).mp h
    rfl
  | pdReqDone env now =>
    obtain ⟨-, -, rfl⟩ := (execPdReqDone_next_iff (env := env)).mp h
    rfl
  | pdListenDone env now =>
    obtain ⟨-, -, rfl⟩ := execPdListenDone_next_iff.mp h
    simp [edgeCountAfter]

/-! ### The two tests on a saturated count -/

theorem inBitWindow_min (hn : 43 ≤ n) (ec : Nat) : inBitWindow (min ec n) = inBitWindow ec := by
  rw [Bool.eq_iff_iff, inBitWindow_iff, inBitWindow_iff]
  omega

theorem min_eq_frameEdges_iff (hn : 43 ≤ n) (ec : Nat) : min ec n = Config.frameEdges ↔ ec = Config.frameEdges := by
  have hedges : Config.frameEdges = 42 := rfl
  omega

/-! ### The state with a saturated counter -/

/-- The state as an implementation holds it whose edge counter saturates at `n` (10_state.md R28). -/
def saturateEc (n : Nat) (s : State) : State := { s with pd := { s.pd with ec := min s.pd.ec n } }

@[simp] theorem saturateEc_saturateEc : saturateEc n (saturateEc n s) = saturateEc n s := by
  simp [saturateEc]

theorem reportTally_saturateEc (tally : Tally) (fails : Bool) :
    reportTally tally fails (saturateEc n s) = saturateEc n (reportTally tally fails s) := by
  simp only [reportTally, deliver, apply_ite (saturateEc n)]
  rfl

/-- Inside the bit window the saturated count is the count, so the same bit of the same byte is set. -/
theorem decodeEdge_saturateEc (hn : 43 ≤ n) (delta : Time) :
    decodeEdge delta (saturateEc n s) = saturateEc n (decodeEdge delta s) := by
  have hwindow : inBitWindow (saturateEc n s).pd.ec = inBitWindow s.pd.ec := inBitWindow_min hn s.pd.ec
  unfold decodeEdge
  rw [hwindow]
  split
  · next hbit =>
    have hec : (saturateEc n s).pd.ec = s.pd.ec := by
      have hrange := (inBitWindow_iff s.pd.ec).mp (Bool.and_eq_true_iff.mp hbit).1
      exact min_eq_left (by omega)
    unfold setFrameBit
    rw [hec]
    rfl
  · rfl

/-- Counting is the one update that needs the saturation again: it goes past `n`. -/
theorem saturateEc_countEdge_saturateEc : saturateEc n (countEdge (saturateEc n s)) = saturateEc n (countEdge s) := by
  have hcount : min (min s.pd.ec n + 1) n = min (s.pd.ec + 1) n := by omega
  simp [saturateEc, countEdge, hcount]

theorem frameValid_saturateEc (hn : 43 ≤ n) : frameValid (saturateEc n s) = frameValid s := by
  have hedges := min_eq_frameEdges_iff hn s.pd.ec
  simp [frameValid, saturateEc, hedges]

theorem answerFrame_saturateEc (hn : 43 ≤ n) (fails : Bool) :
    answerFrame fails (saturateEc n s) = saturateEc n (answerFrame fails s) := by
  simp only [answerFrame, frameValid_saturateEc hn, deliver, apply_ite (saturateEc n)]
  rfl

/-! ### Outcomes up to saturation -/

/-- The outcome with `f` applied to its next state, if it has one. -/
def onNext (f : State → State) : Host.Outcome State Fault Refusal → Host.Outcome State Fault Refusal
  | .next s => .next (f s)
  | .fault r => .fault r
  | .refused r => .refused r

theorem onNext_eq_next_iff {f : State → State} {o : Host.Outcome State Fault Refusal} {u : State} :
    onNext f o = .next u ↔ ∃ t, o = .next t ∧ f t = u := by
  cases o <;> simp [onNext]

theorem onNext_eq_refused_iff {f : State → State} {o : Host.Outcome State Fault Refusal} {r : Refusal} :
    onNext f o = .refused r ↔ o = .refused r := by
  cases o <;> simp [onNext]

theorem onNext_eq_fault_iff {f : State → State} {o : Host.Outcome State Fault Refusal} {r : Fault} :
    onNext f o = .fault r ↔ o = .fault r := by
  cases o <;> simp [onNext]

/-- Two outcomes that an edge counter saturating at `n` does not tell apart. -/
def SameUpToSaturation (n : Nat) (o o' : Host.Outcome State Fault Refusal) : Prop :=
  onNext (saturateEc n) o = onNext (saturateEc n) o'

theorem sameUpToSaturation_next : SameUpToSaturation n (.next s) (.next t) ↔ saturateEc n s = saturateEc n t := by
  simp [SameUpToSaturation, onNext]

/-- Saturating the next state of an outcome is not told apart from leaving it. -/
theorem sameUpToSaturation_of_eq {o o' : Host.Outcome State Fault Refusal} (h : o' = onNext (saturateEc n) o) :
    SameUpToSaturation n o' o := by
  cases o <;> simp [SameUpToSaturation, onNext, h]

/-- No gate reads the edge counter, so acceptance is alike and only the body counts. -/
theorem accept_saturateEc {gate : Option Refusal} {body : State → Host.Outcome State Fault Refusal}
    (h : SameUpToSaturation n (body (saturateEc n (sample now s))) (body (sample now s))) :
    SameUpToSaturation n (accept now gate (saturateEc n s) body) (accept now gate s body) := by
  have htime : (saturateEc n s).lastNow = s.lastNow := rfl
  unfold accept
  rw [htime]
  split
  · cases gate with
    | none => exact h
    | some r => rfl
  · rfl

/-- An operation whose body carries the saturated counter along. -/
theorem accept_saturateEc_of_eq {gate : Option Refusal} {body : State → Host.Outcome State Fault Refusal}
    (h : body (saturateEc n (sample now s)) = onNext (saturateEc n) (body (sample now s))) :
    SameUpToSaturation n (accept now gate (saturateEc n s) body) (accept now gate s body) :=
  accept_saturateEc (sameUpToSaturation_of_eq h)

/-! ### Every operation, on the saturated state -/

theorem execPdEdge_saturateEc (hn : 43 ≤ n) :
    SameUpToSaturation n (execPdEdge env now (saturateEc n s)) (execPdEdge env now s) := by
  refine accept_saturateEc ?_
  have hmask : (saturateEc n (sample now s)).pd.irqEn = (sample now s).pd.irqEn := rfl
  have hmark : markPd now (saturateEc n (sample now s)) =
    ((markPd now (sample now s)).1, saturateEc n (markPd now (sample now s)).2) := rfl
  simp only [hmask, hmark, decodeEdge_saturateEc hn]
  split <;> rw [sameUpToSaturation_next]
  · exact saturateEc_countEdge_saturateEc
  · exact saturateEc_saturateEc

theorem exec_saturateEc (hn : 43 ≤ n) (i : Instr) (s : State) :
    SameUpToSaturation n (exec i (saturateEc n s)) (exec i s) := by
  cases i with
  | pdEdge env now => exact execPdEdge_saturateEc (env := env) hn
  | fcInit env now | fcEdge env now | pdInit env now | pdRead env now =>
    simp only [exec, execFcInit, execFcEdge, execPdInit, execPdRead]
    refine accept_saturateEc_of_eq ?_
    simp only [apply_ite (onNext _)]
    rfl
  | fcWrite env now | pdWrite env now | pdReqDone env now =>
    simp only [exec, execFcWrite, execPdWrite, execPdReqDone]
    exact accept_saturateEc_of_eq rfl
  | fcRead env now =>
    simp only [exec, execFcRead]
    have hreport := reportTally_saturateEc (n := n) (s := setFcIrq true (drainRing (setFcIrq false (sample now s))))
    exact accept_saturateEc_of_eq (congrArg _ (hreport _ _))
  | pdListenDone env now =>
    simp only [exec, execPdListenDone]
    have hanswer := answerFrame_saturateEc (s := setPhase .idle (setPdIrq false (sample now s))) hn
    exact accept_saturateEc_of_eq (congrArg _ (hanswer _))

/-- Settles O47: each operation carries the saturation along, and counting commutes with it up to saturating again. -/
theorem saturatingEdgeCounterUnobservable : Obligations.SaturatingEdgeCounterUnobservable := by
  refine ⟨rfl, ?writers, ?tests, ?simulation⟩
  case writers =>
    intro i s t h
    rw [exec_next_ec h]
    cases i <;> rfl
  case tests =>
    rintro s ⟨-, -, -, -, hsat⟩
    exact ⟨inBitWindow_min hsat s.pd.ec, min_eq_frameEdges_iff hsat s.pd.ec⟩
  case simulation =>
    intro n i s hn
    have hsame : onNext (saturateEc n) (exec i (saturateEc n s)) = onNext (saturateEc n) (exec i s) :=
      exec_saturateEc hn i s
    refine ⟨fun t h => ?next, fun r h => ?refused, fun r h => ?fault⟩
    case next => exact onNext_eq_next_iff.mp (hsame.trans (congrArg _ h))
    case refused => exact onNext_eq_refused_iff.mp (hsame.trans (congrArg _ h))
    case fault => exact onNext_eq_fault_iff.mp (hsame.trans (congrArg _ h))

end Sys2Proof.Machine
end

section
/-! 30_encoding.md R94, 42_protocol_decoder.md R192: the fields of a frame in arithmetic. -/

namespace Sys2Proof.Machine

theorem shiftLeft_eight_or_byte (hi : Nat) (lo : Byte) : hi <<< 8 ||| lo.toNat = 256 * hi + lo.toNat := by
  rw [← Nat.shiftLeft_add_eq_or_of_lt lo.isLt, Nat.shiftLeft_eq, Nat.mul_comm]

theorem Frame.humidity_eq (f : Frame) : f.humidity = 256 * f.b0.toNat + f.b1.toNat :=
  shiftLeft_eight_or_byte _ _

theorem Frame.magnitude_eq (f : Frame) : f.magnitude = 256 * (f.b2.toNat % 128) + f.b3.toNat := by
  have hlow : (f.b2 &&& 0x7F#8).toNat = f.b2.toNat % 128 :=
    (BitVec.toNat_and _ _).trans (Nat.and_two_pow_sub_one_eq_mod f.b2.toNat 7)
  rw [Frame.magnitude, shiftLeft_eight_or_byte, hlow]

theorem Frame.humidity_le (f : Frame) : f.humidity ≤ 65535 := by
  rw [f.humidity_eq]
  omega

theorem Frame.magnitude_le (f : Frame) : f.magnitude ≤ 32767 := by
  rw [f.magnitude_eq]
  omega

theorem and_0x80_ne_zero_iff (b : Byte) : b &&& 0x80#8 ≠ 0#8 ↔ b.getLsbD 7 = true := by
  revert b
  decide

theorem Frame.temperature_eq (f : Frame) :
    f.temperature = if f.b2.getLsbD 7 then -(f.magnitude : Int) else (f.magnitude : Int) := by
  simp only [Frame.temperature, and_0x80_ne_zero_iff]

theorem Frame.natAbs_temperature (f : Frame) : f.temperature.natAbs = f.magnitude := by
  rw [f.temperature_eq]
  split <;> simp

/-- Settles O39: a shift by a byte and an `or` with a byte are a product with 256 and a sum. -/
theorem frameFieldsAreBigEndian : Obligations.FrameFieldsAreBigEndian := by
  intro f
  have habs := f.natAbs_temperature
  have hmag := f.magnitude_le
  refine ⟨f.humidity_eq, f.humidity_le, f.magnitude_eq, hmag, f.temperature_eq, by omega, by omega, ?zero, ?least⟩
  case zero =>
    intro hb2 hb3
    have hzero : f.magnitude = 0 := by simp [f.magnitude_eq, hb2, hb3]
    have htemp : f.temperature = 0 := by omega
    rw [htemp]
    rfl
  case least =>
    intro hb2 hb3
    simp [f.temperature_eq, f.magnitude_eq, hb2, hb3]

end Sys2Proof.Machine
end

section
/-! 30_encoding.md R103 to R105: the record each operation answers with. -/

namespace Sys2Proof.Machine

variable {i : Instr} {s t : State} {r : Response}

/-! ### The records -/

/-- The record of an INIT (43_system_ops.md R212, R214). -/
def initAnswer (u : UnitId) (env : Byte) : Response := ⟨u, if initFails env then .errInit else .okInit, []⟩

/-- The record of a text that is delivered, unless the environment answers a copy fault. -/
def deliveryAnswer (u : UnitId) (text : List Byte) (fails : Bool) : Response :=
  if fails then ⟨u, .errCopy, []⟩ else ⟨u, .okData, text⟩

/-- The record of `FC.READ` (41_frequency_capture.md R150 to R152). -/
def tallyAnswer (p : Params) (tally : Tally) (fails : Bool) : Response :=
  if gateThr p < tally.cnt then
    if tally.sum / tally.cnt = 0 then ⟨.fc, .okEmpty, []⟩
    else deliveryAnswer .fc (fcText (hertz (tally.sum / tally.cnt))) fails
  else ⟨.fc, .okEmpty, []⟩

/-- The record of `PD.LISTEN_DONE` (42_protocol_decoder.md R185 to R191). -/
def frameAnswer (s : State) (fails : Bool) : Response :=
  if frameValid s then
    deliveryAnswer .pd (pdText (loadFrame s.pd.frame).humidity (loadFrame s.pd.frame).temperature) fails
  else ⟨.pd, .errIo, []⟩

/-- What an operation that answers a next state leaves as its response (30_encoding.md R105). -/
def responseAfter (i : Instr) (s : State) : Option Response :=
  match i with
  | .fcInit env _ => some (initAnswer .fc env)
  | .fcEdge _ _ => none
  | .fcRead env _ => some (tallyAnswer s.params (scanRing s) (copyFail env))
  | .fcWrite _ _ => some ⟨.fc, .errInval, []⟩
  | .pdInit env _ => some (initAnswer .pd env)
  | .pdEdge _ _ => none
  | .pdRead _ _ => if s.pd.cooldown then some ⟨.pd, .okEmpty, []⟩ else none
  | .pdWrite _ _ => some ⟨.pd, .errInval, []⟩
  | .pdReqDone _ _ => none
  | .pdListenDone env _ => some (frameAnswer s (copyFail env))

theorem reportTally_response (tally : Tally) (fails : Bool) (s : State) :
    (reportTally tally fails s).response = some (tallyAnswer s.params tally fails) := by
  unfold reportTally tallyAnswer
  split
  · split
    · rfl
    · exact deliver_response ..
  · rfl

theorem answerFrame_response (fails : Bool) (s : State) :
    (answerFrame fails s).response = some (frameAnswer s fails) := by
  unfold answerFrame frameAnswer
  split
  · exact deliver_response ..
  · rfl

theorem exec_next_response (h : exec i s = .next t) : t.response = responseAfter i s := by
  cases i with
  | fcInit env now =>
    obtain ⟨-, -, rfl⟩ := execFcInit_next_iff.mp h
    simp only [responseAfter, initAnswer]
    split <;> rfl
  | fcEdge env now =>
    obtain ⟨-, -, ⟨-, -, rfl⟩ | ⟨-, rfl⟩⟩ := (execFcEdge_next_iff (env := env)).mp h <;> rfl
  | fcRead env now =>
    obtain ⟨-, -, rfl⟩ := execFcRead_next_iff.mp h
    exact reportTally_response ..
  | fcWrite env now =>
    obtain ⟨-, -, rfl⟩ := (execFcWrite_next_iff (env := env)).mp h
    rfl
  | pdInit env now =>
    obtain ⟨-, -, rfl⟩ := execPdInit_next_iff.mp h
    simp only [responseAfter, initAnswer]
    split <;> rfl
  | pdEdge env now =>
    obtain ⟨-, -, rfl⟩ := (execPdEdge_next_iff (env := env)).mp h
    split <;> simp [responseAfter]
  | pdRead env now =>
    obtain ⟨-, -, rfl⟩ := (execPdRead_next_iff (env := env)).mp h
    simp only [responseAfter]
    split <;> rfl
  | pdWrite env now =>
    obtain ⟨-, -, rfl⟩ := (execPdWrite_next_iff (env := env)).mp h
    rfl
  | pdReqDone env now =>
    obtain ⟨-, -, rfl⟩ := (execPdReqDone_next_iff (env := env)).mp h
    rfl
  | pdListenDone env now =>
    obtain ⟨-, -, rfl⟩ := execPdListenDone_next_iff.mp h
    exact answerFrame_response ..

/-! ### Lengths of the texts -/

theorem hertz_lt (period : Nat) : hertz period < 10 ^ 10 := (Nat.div_le_self _ _).trans_lt (by decide)

theorem decInt_length_le {k : Nat} (v : Int) (hk : 1 ≤ k) (h : v.natAbs < 10 ^ k) : (decInt v).length ≤ k + 1 := by
  have hdec := dec_length_le k v.natAbs hk h
  unfold decInt
  split
  · exact Nat.succ_le_succ hdec
  · exact hdec.trans (Nat.le_succ k)

/-- A frequency is at most 10^9, ten digits, and a newline follows (R97). -/
theorem fcText_length_bounds (period : Nat) :
    2 ≤ (fcText (hertz period)).length ∧ (fcText (hertz period)).length ≤ 17 := by
  have hmin := dec_length_pos (hertz period)
  have hmax := dec_length_le 10 _ (by decide) (hertz_lt period)
  simp only [fcText, List.length_append, List.length_singleton]
  omega

/-- Both fields have at most five digits and the temperature a sign, beside six bytes that stand in every text (R98). -/
theorem pdText_length_bounds (f : Frame) :
    2 ≤ (pdText f.humidity f.temperature).length ∧ (pdText f.humidity f.temperature).length ≤ 17 := by
  have hhumidity := dec_length_le 5 f.humidity (by decide) (f.humidity_le.trans_lt (by decide))
  have htemperature := decInt_length_le (k := 5) f.temperature (by decide)
    (f.natAbs_temperature ▸ f.magnitude_le.trans_lt (by decide))
  simp only [pdText, List.length_append, List.length_cons, List.length_nil]
  omega

/-! ### What every record meets (R103, R104) -/

/-- The record is of this unit, in the form of R103, and carries one of these statuses. -/
def Response.Meets (u : UnitId) (statuses : List Status) (r : Response) : Prop :=
  r.unit = u ∧ ResponseWf r ∧ r.status ∈ statuses

theorem meets_of_no_text {u : UnitId} {status : Status} {statuses : List Status} (hdata : status ≠ .okData)
    (hmem : status ∈ statuses) : Response.Meets u statuses ⟨u, status, []⟩ :=
  ⟨rfl, ⟨Nat.zero_le 17, fun h => absurd h hdata, fun _ => rfl⟩, hmem⟩

theorem deliveryAnswer_meets {u : UnitId} {text : List Byte} {statuses : List Status} (fails : Bool)
    (hlength : 2 ≤ text.length ∧ text.length ≤ 17) (hdata : .okData ∈ statuses) (hcopy : .errCopy ∈ statuses) :
    Response.Meets u statuses (deliveryAnswer u text fails) := by
  cases fails with
  | true => exact meets_of_no_text nofun hcopy
  | false => exact ⟨rfl, ⟨hlength.2, fun _ => hlength.1, fun h => absurd rfl h⟩, hdata⟩

theorem initAnswer_meets (u : UnitId) (env : Byte) : Response.Meets u [.okInit, .errInit] (initAnswer u env) := by
  unfold initAnswer
  split <;> exact meets_of_no_text nofun (by decide)

theorem tallyAnswer_meets (p : Params) (tally : Tally) (fails : Bool) :
    Response.Meets .fc [.okData, .okEmpty, .errCopy] (tallyAnswer p tally fails) := by
  have hempty : Response.Meets .fc [.okData, .okEmpty, .errCopy] ⟨.fc, .okEmpty, []⟩ :=
    meets_of_no_text nofun (by decide)
  unfold tallyAnswer
  split
  · split
    · exact hempty
    · exact deliveryAnswer_meets fails (fcText_length_bounds _) (by decide) (by decide)
  · exact hempty

theorem frameAnswer_meets (s : State) (fails : Bool) :
    Response.Meets .pd [.okData, .errIo, .errCopy] (frameAnswer s fails) := by
  unfold frameAnswer
  split
  · exact deliveryAnswer_meets fails (pdText_length_bounds _) (by decide) (by decide)
  · exact meets_of_no_text nofun (by decide)

/-- The statuses that the table of R104 gives an operation. -/
def statusesOf : Instr → List Status
  | .fcInit _ _ => [.okInit, .errInit]
  | .fcEdge _ _ => []
  | .fcRead _ _ => [.okData, .okEmpty, .errCopy]
  | .fcWrite _ _ => [.errInval]
  | .pdInit _ _ => [.okInit, .errInit]
  | .pdEdge _ _ => []
  | .pdRead _ _ => [.okEmpty]
  | .pdWrite _ _ => [.errInval]
  | .pdReqDone _ _ => []
  | .pdListenDone _ _ => [.okData, .errIo, .errCopy]

theorem responseAfter_meets (h : responseAfter i s = some r) : r.Meets (unitOf i) (statusesOf i) := by
  cases i with
  | fcInit env now | pdInit env now => exact Option.some.inj h ▸ initAnswer_meets _ env
  | fcEdge env now | pdEdge env now | pdReqDone env now => cases h
  | fcRead env now => exact Option.some.inj h ▸ tallyAnswer_meets ..
  | fcWrite env now | pdWrite env now => exact Option.some.inj h ▸ meets_of_no_text nofun (List.mem_singleton_self _)
  | pdRead env now =>
    obtain ⟨-, rfl⟩ : s.pd.cooldown = true ∧ _ = r := by simpa [responseAfter] using h
    exact meets_of_no_text nofun (List.mem_singleton_self _)
  | pdListenDone env now => exact Option.some.inj h ▸ frameAnswer_meets ..

theorem exec_next_meets (h : exec i s = .next t) (hr : t.response = some r) : r.Meets (unitOf i) (statusesOf i) :=
  responseAfter_meets ((exec_next_response h).symm.trans hr)

/-! ### The obligations -/

/-- Settles O52: the response each operation leaves, and the phase the start of a handshake enters. -/
theorem whichOperationsAnswer : Obligations.WhichOperationsAnswer := by
  intro i s t h
  have hresponse := exec_next_response h
  refine ⟨?answers, ?read, ?listenDone⟩
  case answers =>
    rw [hresponse]
    cases i with
    | pdRead env now => cases hc : s.pd.cooldown <;> simp [responseAfter, hc]
    | _ => rfl
  case read =>
    rintro env now rfl
    split
    case isTrue hc => rw [hresponse, responseAfter, if_pos hc]
    case isFalse hc =>
      obtain ⟨-, -, rfl⟩ := (execPdRead_next_iff (env := env)).mp h
      rw [if_neg hc]
      rfl
  case listenDone =>
    rintro env now rfl
    obtain ⟨hunit, -, -⟩ := frameAnswer_meets s (copyFail env)
    exact ⟨_, hresponse, hunit⟩

/-- Settles O53: what every record meets, the statuses read off the table. -/
theorem statusCodesAndTheirProducers : Obligations.StatusCodesAndTheirProducers := by
  refine ⟨rfl, rfl, rfl, rfl, rfl, rfl, rfl, ?codes, ?producers⟩
  case codes => intro st; cases st <;> decide
  case producers =>
    intro i s t r h hr
    obtain ⟨hunit, hwf, hstatus⟩ := exec_next_meets h hr
    refine ⟨hunit, hwf, ?_⟩
    cases i with
    | fcEdge env now | pdEdge env now | pdReqDone env now => exact absurd hstatus List.not_mem_nil
    | _ => simpa [statusesOf] using hstatus

/-- Settles O54: a text of at most 17 bytes has a length that fits its byte. -/
theorem responseRecordForm : Obligations.ResponseRecordForm := by
  intro i s t r h hr
  obtain ⟨-, hwf, -⟩ := exec_next_meets h hr
  have ⟨hlength, _, _⟩ := hwf
  have hlen : r.text.length < 2 ^ 8 := hlength.trans_lt (by decide)
  exact ⟨hwf, rfl, (BitVec.toNat_ofNat _ _).trans (Nat.mod_eq_of_lt hlen), rfl, rfl⟩

end Sys2Proof.Machine
end

section
/-! 40_edgetimer.md: what `mark` returns, and which operations leave a mark. -/

namespace Sys2Proof.Machine

variable {i : Instr} {s t : State} {now : Time}

/-! ### mark (R130, R131, R134) -/

/-- Settles O16: a mark keeps its own time, so the difference to a second one at that time is 0. -/
theorem markReturnsElapsedTime : Obligations.MarkReturnsElapsedTime := fun _ now =>
  ⟨rfl, rfl, BitVec.sub_self now, BitVec.sub_self now, rfl, rfl⟩

theorem fc_prev_le_of_timeForward (h : Inv s) (hnow : TimeForward now s) : s.fc.prev.toNat ≤ now.toNat := by
  obtain ⟨-, ⟨-, -, -, -, -, hprev⟩, -⟩ := h
  exact hprev.trans hnow

theorem pd_prev_le_of_timeForward (h : Inv s) (hnow : TimeForward now s) : s.pd.prev.toNat ≤ now.toNat := by
  obtain ⟨-, -, ⟨-, -, -, -, -, -, -, hprev, -⟩, -⟩ := h
  exact hprev.trans hnow

/-- Settles O17: under the invariant no stored time is later than the operation before, which is in time. -/
theorem markNeverBorrows : Obligations.MarkNeverBorrows := by
  intro s now hs hnow
  have hfc := fc_prev_le_of_timeForward hs hnow
  have hpd := pd_prev_le_of_timeForward hs hnow
  exact ⟨hfc, hpd, BitVec.toNat_sub_of_le (BitVec.le_def.mpr hfc), BitVec.toNat_sub_of_le (BitVec.le_def.mpr hpd)⟩

/-! ### The unit an operation leaves alone (00_scope.md R3) -/

theorem exec_next_pd_of_unitOf_fc (h : exec i s = .next t) (hunit : unitOf i = .fc) : t.pd = s.pd := by
  cases i with
  | fcInit env now =>
    obtain ⟨-, -, rfl⟩ := execFcInit_next_iff.mp h
    split <;> rfl
  | fcEdge env now =>
    obtain ⟨-, -, ⟨-, -, rfl⟩ | ⟨-, rfl⟩⟩ := (execFcEdge_next_iff (env := env)).mp h <;> rfl
  | fcRead env now =>
    obtain ⟨-, -, rfl⟩ := execFcRead_next_iff.mp h
    exact reportTally_pd ..
  | fcWrite env now =>
    obtain ⟨-, -, rfl⟩ := (execFcWrite_next_iff (env := env)).mp h
    rfl
  | _ => cases hunit

theorem exec_next_fc_of_unitOf_pd (h : exec i s = .next t) (hunit : unitOf i = .pd) : t.fc = s.fc := by
  cases i with
  | pdInit env now =>
    obtain ⟨-, -, rfl⟩ := execPdInit_next_iff.mp h
    split <;> rfl
  | pdEdge env now =>
    obtain ⟨-, -, rfl⟩ := (execPdEdge_next_iff (env := env)).mp h
    split
    · exact decodeEdge_fc ..
    · rfl
  | pdRead env now =>
    obtain ⟨-, -, rfl⟩ := (execPdRead_next_iff (env := env)).mp h
    split <;> rfl
  | pdWrite env now =>
    obtain ⟨-, -, rfl⟩ := (execPdWrite_next_iff (env := env)).mp h
    rfl
  | pdReqDone env now =>
    obtain ⟨-, -, rfl⟩ := (execPdReqDone_next_iff (env := env)).mp h
    rfl
  | pdListenDone env now =>
    obtain ⟨-, -, rfl⟩ := execPdListenDone_next_iff.mp h
    exact answerFrame_fc ..
  | _ => cases hunit

/-! ### Who marks (R133) -/

/-- What an operation that answers a next state leaves in `FC.prev`. -/
def fcPrevAfter (i : Instr) (s : State) : Time :=
  match i with
  | .fcEdge _ now => if s.fc.irqEn then now else s.fc.prev
  | .fcInit env _ => if env &&& 7#8 = 0#8 then 0#64 else s.fc.prev
  | _ => s.fc.prev

/-- What an operation that answers a next state leaves in `PD.prev`. -/
def pdPrevAfter (i : Instr) (s : State) : Time :=
  match i with
  | .pdEdge _ now => if s.pd.irqEn then now else s.pd.prev
  | .pdRead _ now => if s.pd.cooldown then s.pd.prev else now
  | .pdInit env _ => if env &&& 7#8 = 0#8 then 0#64 else s.pd.prev
  | _ => s.pd.prev

@[simp] theorem decodeEdge_prev (delta : Time) (s : State) : (decodeEdge delta s).pd.prev = s.pd.prev := by
  unfold decodeEdge
  split <;> rfl

theorem exec_next_fc_prev (h : exec i s = .next t) : t.fc.prev = fcPrevAfter i s := by
  cases i with
  | fcInit env now =>
    obtain ⟨-, -, rfl⟩ := execFcInit_next_iff.mp h
    simp only [fcPrevAfter, ← initFails_false_iff]
    cases initFails env <;> rfl
  | fcEdge env now =>
    obtain ⟨-, -, ⟨hirq, -, rfl⟩ | ⟨hirq, rfl⟩⟩ := (execFcEdge_next_iff (env := env)).mp h <;>
      simp [fcPrevAfter, hirq]
  | fcRead env now =>
    obtain ⟨-, -, rfl⟩ := execFcRead_next_iff.mp h
    simp [fcPrevAfter]
  | fcWrite env now =>
    obtain ⟨-, -, rfl⟩ := (execFcWrite_next_iff (env := env)).mp h
    rfl
  | _ => exact congrArg FcUnit.prev (exec_next_fc_of_unitOf_pd h rfl)

theorem exec_next_pd_prev (h : exec i s = .next t) : t.pd.prev = pdPrevAfter i s := by
  cases i with
  | pdInit env now =>
    obtain ⟨-, -, rfl⟩ := execPdInit_next_iff.mp h
    simp only [pdPrevAfter, ← initFails_false_iff]
    cases initFails env <;> rfl
  | pdEdge env now =>
    obtain ⟨-, -, rfl⟩ := (execPdEdge_next_iff (env := env)).mp h
    simp only [pdPrevAfter]
    split <;> simp
  | pdRead env now =>
    obtain ⟨-, -, rfl⟩ := (execPdRead_next_iff (env := env)).mp h
    simp only [pdPrevAfter]
    split <;> rfl
  | pdWrite env now =>
    obtain ⟨-, -, rfl⟩ := (execPdWrite_next_iff (env := env)).mp h
    rfl
  | pdReqDone env now =>
    obtain ⟨-, -, rfl⟩ := (execPdReqDone_next_iff (env := env)).mp h
    rfl
  | pdListenDone env now =>
    obtain ⟨-, -, rfl⟩ := execPdListenDone_next_iff.mp h
    simp [pdPrevAfter]
  | _ => exact congrArg PdUnit.prev (exec_next_pd_of_unitOf_fc h rfl)

/-- Settles O18: the previous time of each unit after each of the ten operations. -/
theorem markedOnlyByEdgesAndHandshakeStart : Obligations.MarkedOnlyByEdgesAndHandshakeStart :=
  fun _ _ _ h => ⟨exec_next_fc_prev h, exec_next_pd_prev h⟩

end Sys2Proof.Machine
end

section
/-! 41_frequency_capture.md: the window filter, the gate, and what `FC.EDGE` and `FC.READ` leave behind. -/

namespace Sys2Proof.Machine

variable {s : State} {env : Byte} {now : Time} {minFreq maxFreq : Reg32} {period freq : Nat}

/-! ### The window filter as a range of periods (R147) -/

/-- The lower bound of the window is an upper bound of the period: both say `freq * period ≤ NS_PER_S`. -/
theorem le_hertz_iff (hfreq : 1 ≤ freq) (hperiod : period ≠ 0) :
    freq ≤ hertz period ↔ period ≤ Config.nsPerS / freq := by
  rw [hertz, Nat.le_div_iff_mul_le (Nat.pos_of_ne_zero hperiod), Nat.le_div_iff_mul_le hfreq, Nat.mul_comm]

/-- The upper bound of the window is a lower bound of the period: both say `NS_PER_S < (freq + 1) * period`. -/
theorem hertz_le_iff (hperiod : period ≠ 0) : hertz period ≤ freq ↔ Config.nsPerS / (freq + 1) < period := by
  rw [← Nat.lt_succ_iff, hertz, Nat.div_lt_iff_lt_mul (Nat.pos_of_ne_zero hperiod),
    Nat.div_lt_iff_lt_mul freq.succ_pos, Nat.mul_comm]

theorem acceptsPeriod_iff_range (hmin : 1 ≤ minFreq.toNat) (hperiod : period ≠ 0) :
    acceptsPeriod minFreq maxFreq period = true ↔
      Config.nsPerS / (maxFreq.toNat + 1) < period ∧ period ≤ Config.nsPerS / minFreq.toNat := by
  rw [acceptsPeriod_iff, le_hertz_iff hmin hperiod, hertz_le_iff hperiod, and_iff_right hperiod, and_comm]

theorem acceptsPeriod_iff_of_minFreq_zero (hmin : minFreq.toNat = 0) (hperiod : period ≠ 0) :
    acceptsPeriod minFreq maxFreq period = true ↔ Config.nsPerS / (maxFreq.toNat + 1) < period := by
  rw [acceptsPeriod_iff, hertz_le_iff hperiod, and_iff_right hperiod, hmin, and_iff_right (Nat.zero_le _)]

theorem acceptsPeriod_false_of_empty_window (hempty : maxFreq.toNat < minFreq.toNat) :
    acceptsPeriod minFreq maxFreq period = false := by
  refine Bool.eq_false_iff.mpr fun h => ?_
  obtain ⟨-, hmin, hmax⟩ := (acceptsPeriod_iff _ _ _).mp h
  exact absurd (hmin.trans hmax) (Nat.not_le.mpr hempty)

/-- Settles O25: each bound of the window is turned into a bound of the period. -/
theorem windowFilterInPeriods : Obligations.WindowFilterInPeriods := fun minFreq maxFreq period =>
  ⟨acceptsPeriod_iff minFreq maxFreq period, acceptsPeriod_iff_range, acceptsPeriod_iff_of_minFreq_zero,
    acceptsPeriod_false_of_empty_window, fun _ => rfl⟩

/-! ### The state after FC.READ (R144 to R152) -/

/-- Reporting writes the response and nothing else. -/
theorem reportTally_eq (tally : Tally) (fails : Bool) (s : State) :
    reportTally tally fails s = { s with response := some (tallyAnswer s.params tally fails) } :=
  State.eq_of_fields (reportTally_fc ..) (reportTally_pd ..) (reportTally_params ..) (reportTally_inputs ..)
    (reportTally_lastNow ..) (reportTally_pending ..) (reportTally_response ..)

/-- What `FC.READ` leaves behind, whatever its result. -/
def afterFcRead (env : Byte) (now : Time) (s : State) : State :=
  { s with lastNow := now, response := some (tallyAnswer s.params (scanRing s) (copyFail env)),
           fc := { s.fc with ring := Memory.zeroBelow s.params.ringCap s.fc.ring, widx := 0, irqEn := true } }

theorem exec_fcRead (hpresent : s.fc.present = true) (hnow : TimeForward now s) :
    exec (.fcRead env now) s = .next (afterFcRead env now s) := by
  refine execFcRead_next_iff.mpr ⟨hnow, hpresent, ?_⟩
  rw [reportTally_eq]
  rfl

/-- Settles O21: the drain stands in the state after every read, and so do the fields the read leaves alone. -/
theorem fcReadAlwaysDrains : Obligations.FcReadAlwaysDrains := by
  intro s env now hpresent hnow
  refine ⟨_, exec_fcRead hpresent hnow, fun i hi => ?below, fun i hi => ?above, rfl⟩
  case below => exact (Memory.read_zeroBelow ..).trans (if_pos hi)
  case above => exact (Memory.read_zeroBelow ..).trans (if_neg (Nat.not_lt.mpr hi))

/-! ### The gate (R150, R151) -/

theorem tallyAnswer_of_cnt_le_gateThr {p : Params} {tally : Tally} (fails : Bool) (h : tally.cnt ≤ gateThr p) :
    tallyAnswer p tally fails = ⟨.fc, .okEmpty, []⟩ := if_neg (Nat.not_lt.mpr h)

theorem tallyAnswer_of_gateThr_lt_cnt {p : Params} {tally : Tally} (fails : Bool) (h : gateThr p < tally.cnt)
    (hmean : tally.sum / tally.cnt ≠ 0) :
    tallyAnswer p tally fails = deliveryAnswer .fc (fcText (hertz (tally.sum / tally.cnt))) fails :=
  (if_pos h).trans (if_neg hmean)

theorem deliveryAnswer_status_ne_okEmpty (u : UnitId) (text : List Byte) (fails : Bool) :
    (deliveryAnswer u text fails).status ≠ .okEmpty := by
  cases fails <;> exact nofun

/-- Every accepted period is at least 1, and so is their mean (90_conflicts.md C5). -/
theorem scanRing_mean_ne_zero (s : State) (h : 0 < (scanRing s).cnt) : (scanRing s).sum / (scanRing s).cnt ≠ 0 :=
  Nat.div_ne_zero_iff.mpr ⟨h.ne', scanPairs_cnt_le_sum ..⟩

/-- Settles O23: up to the gate the answer is empty; past it there is a mean to deliver, which may end in a copy
fault. -/
theorem gateIsStrictAtThirtyTwo : Obligations.GateIsStrictAtThirtyTwo := by
  refine ⟨rfl, fun _ => rfl, fun s env now hpresent hnow => ⟨fun hle => ?empty, fun hlt => ?reports⟩⟩
  case empty =>
    exact ⟨_, exec_fcRead hpresent hnow, congrArg some (tallyAnswer_of_cnt_le_gateThr _ hle)⟩
  case reports =>
    have hmean := scanRing_mean_ne_zero s (Nat.zero_lt_of_lt hlt)
    exact ⟨_, _, exec_fcRead hpresent hnow, congrArg some (tallyAnswer_of_gateThr_lt_cnt _ hlt hmean),
      deliveryAnswer_status_ne_okEmpty _ _ _⟩

/-! ### The masked FC.EDGE (R142) -/

theorem exec_fcEdge_masked (hpresent : s.fc.present = true) (hnow : TimeForward now s) (hmask : s.fc.irqEn = false) :
    exec (.fcEdge env now) s = .next (sample now s) :=
  (execFcEdge_next_iff (env := env)).mpr ⟨hnow, hpresent, .inr ⟨hmask, rfl⟩⟩

theorem fc_irqEn_of_inv (h : Inv s) : s.fc.irqEn = true := by
  obtain ⟨-, ⟨-, hirq, -⟩, -⟩ := h
  exact hirq

/-- Settles O20: a masked edge samples the time and no more, and the invariant holds the mask up. -/
theorem fcMaskedEdgeChangesNothing : Obligations.FcMaskedEdgeChangesNothing :=
  ⟨fun _ _ _ => exec_fcEdge_masked, fun _ => fc_irqEn_of_inv⟩

end Sys2Proof.Machine
end

section
/-! 42_protocol_decoder.md: the cooldown read, the masked edge, the frame-fault, and the transitions of the sequencer. -/

namespace Sys2Proof.Machine

variable {i : Instr} {s t : State} {env : Byte} {now : Time}

/-! ### The cooldown arm of PD.READ (R174) -/

/-- Settles O31: of the two arms of an enabled read, the one the cooldown takes. -/
theorem pdReadConsumesCooldown : Obligations.PdReadConsumesCooldown := by
  intro s env now hpresent hidle hnow hcooldown
  refine (execPdRead_next_iff (env := env)).mpr ⟨hnow, ⟨hpresent, hidle⟩, ?_⟩
  rw [if_pos hcooldown]
  rfl

/-! ### The masked PD.EDGE (R179) -/

theorem pd_irqEn_iff_listening (h : Inv s) : s.pd.irqEn = true ↔ s.pd.phase = .listening := by
  obtain ⟨-, -, ⟨hirq, -⟩, -⟩ := h
  exact hirq

theorem exec_pdEdge_masked (hpresent : s.pd.present = true) (hnow : TimeForward now s) (hmask : s.pd.irqEn = false) :
    exec (.pdEdge env now) s = .next (sample now s) := by
  refine (execPdEdge_next_iff (env := env)).mpr ⟨hnow, hpresent, ?_⟩
  rw [hmask]
  rfl

/-- Settles O34: under the invariant the mask is up in `Listening` only. -/
theorem pdEdgeOutsideWindowMasked : Obligations.PdEdgeOutsideWindowMasked := by
  intro s env now hs hpresent hnow hphase
  have houtside : s.pd.phase ≠ .listening := by rcases hphase with h | h <;> simp [h]
  have hmask : s.pd.irqEn = false := Bool.eq_false_iff.mpr (mt (pd_irqEn_iff_listening hs).mp houtside)
  exact ⟨hmask, exec_pdEdge_masked hpresent hnow hmask⟩

/-! ### The state after PD.LISTEN_DONE (R182 to R191) -/

theorem frameValid_iff : frameValid s = true ↔ s.pd.ec = 42 ∧ (loadFrame s.pd.frame).checksumOk = true := by
  have hedges : Config.frameEdges = 42 := rfl
  simp [frameValid, hedges]

/-- Decoding writes the response and, on a valid frame, the cooldown. -/
theorem answerFrame_eq (fails : Bool) (s : State) :
    answerFrame fails s = { s with
      response := some (frameAnswer s fails)
      pd := { s.pd with cooldown := if frameValid s then true else s.pd.cooldown } } :=
  State.eq_of_fields (answerFrame_fc ..) (answerFrame_pd ..) (answerFrame_params ..) (answerFrame_inputs ..)
    (answerFrame_lastNow ..) (answerFrame_pending ..) (answerFrame_response ..)

/-- What `PD.LISTEN_DONE` leaves behind, whatever its result. -/
def afterListenDone (env : Byte) (now : Time) (s : State) : State :=
  { s with lastNow := now, response := some (frameAnswer s (copyFail env)),
           pd := { s.pd with irqEn := false, phase := .idle,
                             cooldown := if frameValid s then true else s.pd.cooldown } }

theorem exec_pdListenDone (hpresent : s.pd.present = true) (hphase : s.pd.phase = .listening)
    (hnow : TimeForward now s) (hmin : s.pd.tPhase.toNat + s.params.listenMinNs ≤ now.toNat)
    (hmax : now.toNat ≤ s.pd.tPhase.toNat + s.params.listenMaxNs) :
    exec (.pdListenDone env now) s = .next (afterListenDone env now s) := by
  have hdelay := (delayWithin_iff ..).mpr ⟨hmin, hmax⟩
  refine execPdListenDone_next_iff.mpr ⟨hnow, ⟨hpresent, hphase, hdelay⟩, ?_⟩
  rw [answerFrame_eq]
  rfl

theorem afterListenDone_of_invalid (hinvalid : frameValid s = false) :
    afterListenDone env now s = { s with
      lastNow := now
      response := some ⟨.pd, .errIo, []⟩
      pd := { s.pd with irqEn := false, phase := .idle } } := by
  simp [afterListenDone, frameAnswer, hinvalid]

/-- Settles O37: either cause makes the frame invalid, and an invalid frame leaves the cooldown as it was. -/
theorem pdListenDoneFrameFault : Obligations.PdListenDoneFrameFault := by
  intro s env now hpresent hphase hnow hmin hmax hcause
  have hinvalid : frameValid s = false := by
    refine Bool.eq_false_iff.mpr fun hvalid => ?_
    obtain ⟨hec, hsum⟩ := frameValid_iff.mp hvalid
    exact hcause.elim (absurd hec) (absurd (of_decide_eq_true hsum))
  rw [exec_pdListenDone hpresent hphase hnow hmin hmax, afterListenDone_of_invalid hinvalid]

/-! ### The sequencer (R170) -/

/-- The phase an operation that answers a next state leaves. -/
def phaseAfter (i : Instr) (s : State) : Phase :=
  match i with
  | .pdInit env _ => if env &&& 7#8 = 0#8 then .idle else s.pd.phase
  | .pdRead _ _ => if s.pd.cooldown then .idle else .requesting
  | .pdReqDone _ _ => .listening
  | .pdListenDone _ _ => .idle
  | _ => s.pd.phase

@[simp] theorem decodeEdge_phase (delta : Time) (s : State) : (decodeEdge delta s).pd.phase = s.pd.phase := by
  unfold decodeEdge
  split <;> rfl

theorem exec_next_phase (h : exec i s = .next t) : t.pd.phase = phaseAfter i s := by
  cases i with
  | pdInit env now =>
    obtain ⟨-, -, rfl⟩ := execPdInit_next_iff.mp h
    simp only [phaseAfter, ← initFails_false_iff]
    cases initFails env <;> rfl
  | pdEdge env now =>
    obtain ⟨-, -, rfl⟩ := (execPdEdge_next_iff (env := env)).mp h
    split <;> simp [phaseAfter]
  | pdRead env now =>
    obtain ⟨-, ⟨-, hidle⟩, rfl⟩ := (execPdRead_next_iff (env := env)).mp h
    simp only [phaseAfter]
    split
    · exact hidle
    · rfl
  | pdWrite env now =>
    obtain ⟨-, -, rfl⟩ := (execPdWrite_next_iff (env := env)).mp h
    rfl
  | pdReqDone env now =>
    obtain ⟨-, -, rfl⟩ := (execPdReqDone_next_iff (env := env)).mp h
    rfl
  | pdListenDone env now =>
    obtain ⟨-, -, rfl⟩ := execPdListenDone_next_iff.mp h
    simp [phaseAfter]
  | _ => exact congrArg PdUnit.phase (exec_next_pd_of_unitOf_fc h rfl)

theorem phase_idle_of_pd_absent (h : Inv s) (habsent : s.pd.present = false) : s.pd.phase = .idle := by
  obtain ⟨-, -, -, -, hreset⟩ := h
  rw [hreset habsent]
  rfl

/-- `PD.INIT` runs on an absent unit, which is `Idle` already. -/
theorem phaseAfter_pdInit (hs : Inv s) (h : exec (.pdInit env now) s = .next t) :
    phaseAfter (.pdInit env now) s = s.pd.phase := by
  obtain ⟨-, habsent, -⟩ := execPdInit_next_iff.mp h
  rw [phaseAfter, phase_idle_of_pd_absent hs habsent, ite_self]

/-- Settles O41: the phase after each operation, and for the three that move it when they run and what they answer. -/
theorem sequencerHasNoOtherTransition : Obligations.SequencerHasNoOtherTransition := by
  intro i s t hs h
  have hresponse := exec_next_response h
  refine ⟨?phase, ?read, ?reqDone, ?listenDone⟩
  case phase =>
    rw [exec_next_phase h]
    cases i with
    | pdInit env now => exact phaseAfter_pdInit hs h
    | _ => rfl
  case read =>
    rintro env now rfl
    obtain ⟨-, ⟨-, hidle⟩, -⟩ := (execPdRead_next_iff (env := env)).mp h
    exact ⟨hidle, fun hcooldown => hresponse.trans (if_pos hcooldown)⟩
  case reqDone =>
    rintro env now rfl
    obtain ⟨-, ⟨-, hphase, hdelay⟩, -⟩ := (execPdReqDone_next_iff (env := env)).mp h
    exact ⟨hphase, (delayWithin_iff_elapsed ..).mp hdelay⟩
  case listenDone =>
    rintro env now rfl
    obtain ⟨-, ⟨-, hphase, hdelay⟩, -⟩ := execPdListenDone_next_iff.mp h
    obtain ⟨-, -, hstatus⟩ := frameAnswer_meets s (copyFail env)
    exact ⟨hphase, (delayWithin_iff_elapsed ..).mp hdelay, _, hresponse, by simpa using hstatus⟩

end Sys2Proof.Machine
end

section
/-! 43_system_ops.md R215, R216: operations on an absent unit, INIT of a present one, and INIT after a failed INIT. -/

namespace Sys2Proof.Machine

variable {i : Instr} {s : State} {env : Byte} {now : Time} {r : Refusal}

/-! ### The gates that name their refusal -/

theorem fcPresentGate_of_absent (h : s.fc.present = false) : fcPresentGate s = some (.unitAbsent .fc) := by
  simp [fcPresentGate, h]

theorem fcAbsentGate_of_present (h : s.fc.present = true) : fcAbsentGate s = some (.unitPresent .fc) := if_pos h

theorem pdPresentGate_of_absent (h : s.pd.present = false) : pdPresentGate s = some (.unitAbsent .pd) := by
  simp [pdPresentGate, h]

theorem pdAbsentGate_of_present (h : s.pd.present = true) : pdAbsentGate s = some (.unitPresent .pd) := if_pos h

theorem pdPhaseGate_of_absent (p : Phase) (h : s.pd.present = false) :
    pdPhaseGate p s = some (.unitAbsent .pd) := by
  simp [pdPhaseGate, h]

/-- Absence is named before the phase and the delay are looked at. -/
theorem pdDelayGate_of_absent (p : Phase) (lo hi : Nat) (now : Time) (h : s.pd.present = false) :
    pdDelayGate p lo hi now s = some (.unitAbsent .pd) := by
  simp [pdDelayGate, pdPhaseGate_of_absent p h]

/-! ### The gate of each operation -/

/-- The refusal an operation's enabling condition ends in, if it is false (70_reset_and_hazards.md R281). -/
def gateOf (i : Instr) (s : State) : Option Refusal :=
  match i with
  | .fcInit _ _ => fcAbsentGate s
  | .fcEdge _ _ => fcPresentGate s
  | .fcRead _ _ => fcPresentGate s
  | .fcWrite _ _ => fcPresentGate s
  | .pdInit _ _ => pdAbsentGate s
  | .pdEdge _ _ => pdPresentGate s
  | .pdRead _ _ => pdPhaseGate .idle s
  | .pdWrite _ _ => pdPresentGate s
  | .pdReqDone _ now => pdDelayGate .requesting s.params.reqMinNs s.params.reqMaxNs now s
  | .pdListenDone _ now => pdDelayGate .listening s.params.listenMinNs s.params.listenMaxNs now s

/-- Every operation is accepted through its gate at its own time. -/
theorem exec_eq_accept (i : Instr) (s : State) : ∃ body, exec i s = accept i.now (gateOf i s) s body := by
  cases i with
  | fcInit env now => exact ⟨_, show execFcInit env now s = _ from rfl⟩
  | fcEdge env now => exact ⟨_, show execFcEdge env now s = _ from rfl⟩
  | fcRead env now => exact ⟨_, show execFcRead env now s = _ from rfl⟩
  | fcWrite env now => exact ⟨_, show execFcWrite env now s = _ from rfl⟩
  | pdInit env now => exact ⟨_, show execPdInit env now s = _ from rfl⟩
  | pdEdge env now => exact ⟨_, show execPdEdge env now s = _ from rfl⟩
  | pdRead env now => exact ⟨_, show execPdRead env now s = _ from rfl⟩
  | pdWrite env now => exact ⟨_, show execPdWrite env now s = _ from rfl⟩
  | pdReqDone env now => exact ⟨_, show execPdReqDone env now s = _ from rfl⟩
  | pdListenDone env now => exact ⟨_, show execPdListenDone env now s = _ from rfl⟩

/-- In time, an operation ends in the refusal its gate names. -/
theorem exec_refused_of_gate (hnow : TimeForward i.now s) (hgate : gateOf i s = some r) : exec i s = .refused r := by
  obtain ⟨body, hexec⟩ := exec_eq_accept i s
  exact hexec.trans (accept_refused hnow hgate)

/-- Settles O9: the gate of each of the eight operations names the absent unit. -/
theorem absentUnitRefusesOperations : Obligations.AbsentUnitRefusesOperations := by
  refine ⟨fun s env now habsent hnow => ?fc, fun s env now habsent hnow => ?pd⟩
  case fc =>
    have hgate := fcPresentGate_of_absent habsent
    exact ⟨exec_refused_of_gate hnow hgate, exec_refused_of_gate hnow hgate, exec_refused_of_gate hnow hgate⟩
  case pd =>
    have hgate := pdPresentGate_of_absent habsent
    exact ⟨exec_refused_of_gate hnow hgate, exec_refused_of_gate hnow (pdPhaseGate_of_absent _ habsent),
      exec_refused_of_gate hnow hgate, exec_refused_of_gate hnow (pdDelayGate_of_absent _ _ _ _ habsent),
      exec_refused_of_gate hnow (pdDelayGate_of_absent _ _ _ _ habsent)⟩

/-! ### INIT of an absent unit (R212, R214) -/

theorem initFails_true_iff (env : Byte) : initFails env = true ↔ env &&& 7#8 ≠ 0#8 := by
  rw [ne_eq, ← initFails_false_iff, Bool.not_eq_false]

theorem exec_fcInit_of_fault (habsent : s.fc.present = false) (hnow : TimeForward now s) (henv : env &&& 7#8 ≠ 0#8) :
    exec (.fcInit env now) s = .next (raiseFault .fc .initFault (sample now s)) :=
  execFcInit_next_iff.mpr ⟨hnow, habsent, (if_pos ((initFails_true_iff env).mpr henv)).symm⟩

theorem exec_fcInit_of_no_fault (habsent : s.fc.present = false) (hnow : TimeForward now s) (henv : env &&& 7#8 = 0#8) :
    exec (.fcInit env now) s = .next (answer .fc .okInit [] (latchFc (sample now s))) :=
  execFcInit_next_iff.mpr ⟨hnow, habsent, by rw [(initFails_false_iff env).mpr henv]; rfl⟩

theorem exec_pdInit_of_fault (habsent : s.pd.present = false) (hnow : TimeForward now s) (henv : env &&& 7#8 ≠ 0#8) :
    exec (.pdInit env now) s = .next (raiseFault .pd .initFault (sample now s)) :=
  execPdInit_next_iff.mpr ⟨hnow, habsent, (if_pos ((initFails_true_iff env).mpr henv)).symm⟩

theorem exec_pdInit_of_no_fault (habsent : s.pd.present = false) (hnow : TimeForward now s) (henv : env &&& 7#8 = 0#8) :
    exec (.pdInit env now) s = .next (answer .pd .okInit [] (latchPd (sample now s))) :=
  execPdInit_next_iff.mpr ⟨hnow, habsent, by rw [(initFails_false_iff env).mpr henv]; rfl⟩

/-- Settles O10: a failed INIT leaves the unit as it was, absent, so that the second one is enabled and latches. -/
theorem initOfPresentUnitRefusedFailedInitRetried : Obligations.InitOfPresentUnitRefusedFailedInitRetried := by
  refine ⟨fun s env now hpresent hnow => ?fcPresent, fun s env now hpresent hnow => ?pdPresent,
    fun s env env' now now' habsent hnow hfault hlater hclear => ?fcRetry,
    fun s env env' now now' habsent hnow hfault hlater hclear => ?pdRetry⟩
  case fcPresent => exact exec_refused_of_gate hnow (fcAbsentGate_of_present hpresent)
  case pdPresent => exact exec_refused_of_gate hnow (pdAbsentGate_of_present hpresent)
  case fcRetry =>
    exact ⟨_, _, exec_fcInit_of_fault habsent hnow hfault, habsent, exec_fcInit_of_no_fault habsent hlater hclear,
      rfl, rfl⟩
  case pdRetry =>
    exact ⟨_, _, exec_pdInit_of_fault habsent hnow hfault, habsent, exec_pdInit_of_no_fault habsent hlater hclear,
      rfl, rfl⟩

end Sys2Proof.Machine
end

section
/-! 60_exceptions.md: the faults of INIT and of a write, who writes the masks, and the order of the two edge sources. -/

namespace Sys2Proof.Machine

variable {i : Instr} {s s' t : State} {env : Byte} {now : Time}

/-! ### The order of the two edges (R244) -/

/-- Which frame bit an edge sets is read off unit PD alone. -/
theorem decodeEdge_pd_congr (delta : Time) (h : s'.pd = s.pd) : (decodeEdge delta s').pd = (decodeEdge delta s).pd := by
  unfold decodeEdge
  rw [h]
  split
  · simp [h]
  · exact h

/-- `FC.EDGE` reads unit FC, the parameters and the time only, and writes unit FC only: it does the same to every state
that agrees on these. -/
theorem exec_fcEdge_local (h : exec (.fcEdge env now) s = .next t) (hfc : s'.fc = s.fc) (hparams : s'.params = s.params)
    (hnow : TimeForward now s') :
    exec (.fcEdge env now) s' = .next { s' with lastNow := now, response := none, fc := t.fc } := by
  obtain ⟨-, hpresent, harm⟩ := (execFcEdge_next_iff (env := env)).mp h
  refine (execFcEdge_next_iff (env := env)).mpr ⟨hnow, by rwa [hfc], ?_⟩
  rw [hfc, hparams]
  obtain ⟨hirq, hwidx, rfl⟩ | ⟨hirq, rfl⟩ := harm
  · exact .inl ⟨hirq, hwidx, State.eq_of_fields (by simp [hfc, hparams]) rfl hparams.symm rfl rfl rfl rfl⟩
  · exact .inr ⟨hirq, State.eq_of_fields hfc.symm rfl hparams.symm rfl rfl rfl rfl⟩

/-- `PD.EDGE` reads unit PD and the time only, and writes unit PD only. -/
theorem exec_pdEdge_local (h : exec (.pdEdge env now) s = .next t) (hpd : s'.pd = s.pd) (hnow : TimeForward now s') :
    exec (.pdEdge env now) s' = .next { s' with lastNow := now, response := none, pd := t.pd } := by
  obtain ⟨-, hpresent, rfl⟩ := (execPdEdge_next_iff (env := env)).mp h
  refine (execPdEdge_next_iff (env := env)).mpr ⟨hnow, by rwa [hpd], ?_⟩
  rw [hpd]
  split
  · have hdecode : (decodeEdge (now - s.pd.prev) (markPd now (sample now s')).2).pd =
        (decodeEdge (now - s.pd.prev) (markPd now (sample now s)).2).pd := decodeEdge_pd_congr _ (by simp [hpd])
    apply State.eq_of_fields <;> simp [hdecode]
  · exact State.eq_of_fields rfl hpd.symm rfl rfl rfl rfl rfl

theorem fcEdge_next_eq (h : exec (.fcEdge env now) s = .next t) :
    t = { s with lastNow := now, response := none, fc := t.fc } := by
  obtain ⟨hnow, -, -⟩ := (execFcEdge_next_iff (env := env)).mp h
  exact Host.Outcome.next.inj (h.symm.trans (exec_fcEdge_local h rfl rfl hnow))

theorem pdEdge_next_eq (h : exec (.pdEdge env now) s = .next t) :
    t = { s with lastNow := now, response := none, pd := t.pd } := by
  obtain ⟨hnow, -, -⟩ := (execPdEdge_next_iff (env := env)).mp h
  exact Host.Outcome.next.inj (h.symm.trans (exec_pdEdge_local h rfl hnow))

/-- Settles O59: each edge does to its own unit what it does in the other order, and both leave the same time. -/
theorem edgesOfTheTwoUnitsCommute : Obligations.EdgesOfTheTwoUnitsCommute := by
  intro s t u e e' now hfc hpd
  obtain ⟨hnow, -, -⟩ := (execFcEdge_next_iff (env := e)).mp hfc
  have hpdFirst := exec_pdEdge_local hpd (exec_next_pd_of_unitOf_fc hfc rfl).symm hnow
  refine ⟨_, hpdFirst, ?_⟩
  rw [pdEdge_next_eq hpd, fcEdge_next_eq hfc]
  exact exec_fcEdge_local (s := s) (t := t) hfc rfl rfl (Nat.le_refl _)

/-! ### The masks (R241) -/

/-- What an operation that answers a next state leaves in `FC.irq_en`. -/
def fcIrqAfter (i : Instr) (s : State) : Bool :=
  match i with
  | .fcRead _ _ => true
  | .fcInit env _ => if env &&& 7#8 = 0#8 then true else s.fc.irqEn
  | _ => s.fc.irqEn

/-- What an operation that answers a next state leaves in `PD.irq_en`. -/
def pdIrqAfter (i : Instr) (s : State) : Bool :=
  match i with
  | .pdReqDone _ _ => true
  | .pdListenDone _ _ => false
  | .pdInit env _ => if env &&& 7#8 = 0#8 then false else s.pd.irqEn
  | _ => s.pd.irqEn

@[simp] theorem decodeEdge_irqEn (delta : Time) (s : State) : (decodeEdge delta s).pd.irqEn = s.pd.irqEn := by
  unfold decodeEdge
  split <;> rfl

theorem exec_next_fc_irqEn (h : exec i s = .next t) : t.fc.irqEn = fcIrqAfter i s := by
  cases i with
  | fcInit env now =>
    obtain ⟨-, -, rfl⟩ := execFcInit_next_iff.mp h
    simp only [fcIrqAfter, ← initFails_false_iff]
    cases initFails env <;> rfl
  | fcEdge env now =>
    obtain ⟨-, -, ⟨-, -, rfl⟩ | ⟨-, rfl⟩⟩ := (execFcEdge_next_iff (env := env)).mp h <;> rfl
  | fcRead env now =>
    obtain ⟨-, -, rfl⟩ := execFcRead_next_iff.mp h
    simp [fcIrqAfter]
  | fcWrite env now =>
    obtain ⟨-, -, rfl⟩ := (execFcWrite_next_iff (env := env)).mp h
    rfl
  | _ => exact congrArg FcUnit.irqEn (exec_next_fc_of_unitOf_pd h rfl)

theorem exec_next_pd_irqEn (h : exec i s = .next t) : t.pd.irqEn = pdIrqAfter i s := by
  cases i with
  | pdInit env now =>
    obtain ⟨-, -, rfl⟩ := execPdInit_next_iff.mp h
    simp only [pdIrqAfter, ← initFails_false_iff]
    cases initFails env <;> rfl
  | pdEdge env now =>
    obtain ⟨-, -, rfl⟩ := (execPdEdge_next_iff (env := env)).mp h
    split <;> simp [pdIrqAfter]
  | pdRead env now =>
    obtain ⟨-, -, rfl⟩ := (execPdRead_next_iff (env := env)).mp h
    split <;> rfl
  | pdWrite env now =>
    obtain ⟨-, -, rfl⟩ := (execPdWrite_next_iff (env := env)).mp h
    rfl
  | pdReqDone env now =>
    obtain ⟨-, -, rfl⟩ := (execPdReqDone_next_iff (env := env)).mp h
    rfl
  | pdListenDone env now =>
    obtain ⟨-, -, rfl⟩ := execPdListenDone_next_iff.mp h
    simp [pdIrqAfter]
  | _ => exact congrArg PdUnit.irqEn (exec_next_pd_of_unitOf_fc h rfl)

theorem pd_irqEn_of_quiescent (hs : Inv s) (hidle : Quiescent s) : s.pd.irqEn = false :=
  Bool.eq_false_iff.mpr fun hirq => by
    have hlistening := (pd_irqEn_iff_listening hs).mp hirq
    exact absurd (hidle.symm.trans hlistening) (by decide)

/-- Settles O56: the masks after each of the ten operations, and what the invariant says of them at rest. -/
theorem masksWrittenOnlyByTheirOperations : Obligations.MasksWrittenOnlyByTheirOperations :=
  ⟨fun _ _ _ h => ⟨exec_next_fc_irqEn h, exec_next_pd_irqEn h⟩,
    fun _ hs => ⟨fc_irqEn_of_inv hs, pd_irqEn_of_quiescent hs⟩⟩

/-! ### An initialisation fault (R234) -/

/-- Each of the three answers is one of the bits an INIT looks at (30_encoding.md R102). -/
theorem and_seven_ne_zero_iff (env : Byte) :
    env &&& 7#8 ≠ 0#8 ↔ env.getLsbD 0 = true ∨ env.getLsbD 1 = true ∨ env.getLsbD 2 = true := by
  rw [← initFails_true_iff, initFails_eq, Bool.or_eq_true, Bool.or_eq_true, or_assoc]

/-- Settles O50: any of the three answers ends INIT in the fault, which writes the response only. -/
theorem initFaultChangesNothing : Obligations.InitFaultChangesNothing :=
  ⟨fun _ env _ habsent hnow hanswer => exec_fcInit_of_fault habsent hnow ((and_seven_ne_zero_iff env).mpr hanswer),
    fun _ env _ habsent hnow hanswer => exec_pdInit_of_fault habsent hnow ((and_seven_ne_zero_iff env).mpr hanswer)⟩

/-! ### A rejected write (R220, R232) -/

/-- Settles O51: a write raises the fault on the state that has sampled the time; no phase is looked at. -/
theorem writesAlwaysRejected : Obligations.WritesAlwaysRejected :=
  ⟨fun _ env _ hpresent hnow => (execFcWrite_next_iff (env := env)).mpr ⟨hnow, hpresent, rfl⟩,
    fun _ env _ hpresent hnow => (execPdWrite_next_iff (env := env)).mpr ⟨hnow, hpresent, rfl⟩⟩

end Sys2Proof.Machine
end

section
/-! 70_reset_and_hazards.md R281: an operation is refused exactly when its enabling condition is false. -/

namespace Sys2Proof.Machine

variable {i : Instr} {s : State} {r : Refusal}

/-- The gates decide the table's conditions on the units; the time is `accept`'s to check. -/
theorem gateOf_eq_none_iff (i : Instr) (s : State) : gateOf i s = none ↔ UnitReady i s := by
  cases i with
  | fcInit env now => exact fcAbsentGate_none s
  | fcEdge env now => exact fcPresentGate_none s
  | fcRead env now => exact fcPresentGate_none s
  | fcWrite env now => exact fcPresentGate_none s
  | pdInit env now => exact pdAbsentGate_none s
  | pdEdge env now => exact pdPresentGate_none s
  | pdRead env now => exact pdPhaseGate_none .idle s
  | pdWrite env now => exact pdPresentGate_none s
  | pdReqDone env now => simp only [gateOf, pdDelayGate_none, delayWithin_iff_elapsed, UnitReady]
  | pdListenDone env now => simp only [gateOf, pdDelayGate_none, delayWithin_iff_elapsed, UnitReady]

/-- No meaning refuses once it is accepted: a refusal is the time's or the gate's. -/
theorem exec_refusal (h : exec i s = .refused r) :
    (i.now.toNat < s.lastNow.toNat ∧ r = .timeDecreased) ∨ (TimeForward i.now s ∧ gateOf i s = some r) := by
  cases i with
  | fcInit env now =>
    refine accept_refusal ?_ (show execFcInit env now s = _ from h)
    split <;> nofun
  | fcEdge env now =>
    refine accept_refusal ?_ (show execFcEdge env now s = _ from h)
    split
    · split <;> nofun
    · nofun
  | fcRead env now => exact accept_refusal (fun _ => by nofun) (show execFcRead env now s = _ from h)
  | fcWrite env now => exact accept_refusal (fun _ => by nofun) (show execFcWrite env now s = _ from h)
  | pdInit env now =>
    refine accept_refusal ?_ (show execPdInit env now s = _ from h)
    split <;> nofun
  | pdEdge env now =>
    refine accept_refusal ?_ (show execPdEdge env now s = _ from h)
    split <;> nofun
  | pdRead env now =>
    refine accept_refusal ?_ (show execPdRead env now s = _ from h)
    split <;> nofun
  | pdWrite env now => exact accept_refusal (fun _ => by nofun) (show execPdWrite env now s = _ from h)
  | pdReqDone env now => exact accept_refusal (fun _ => by nofun) (show execPdReqDone env now s = _ from h)
  | pdListenDone env now => exact accept_refusal (fun _ => by nofun) (show execPdListenDone env now s = _ from h)

theorem exec_refused_of_early (h : i.now.toNat < s.lastNow.toNat) : exec i s = .refused .timeDecreased := by
  obtain ⟨body, hexec⟩ := exec_eq_accept i s
  exact hexec.trans (accept_early h)

theorem exec_refused_iff_not_enabled (i : Instr) (s : State) : (∃ r, exec i s = .refused r) ↔ ¬ Enabled i s := by
  constructor
  case mp =>
    rintro ⟨r, h⟩ ⟨hready, hnow⟩
    obtain ⟨hearly, -⟩ | ⟨-, hgate⟩ := exec_refusal h
    · exact absurd hnow (Nat.not_le.mpr hearly)
    · rw [(gateOf_eq_none_iff i s).mpr hready] at hgate
      cases hgate
  case mpr =>
    intro hdisabled
    by_cases hnow : TimeForward i.now s
    · have hgate : gateOf i s ≠ none := fun h => hdisabled ⟨(gateOf_eq_none_iff i s).mp h, hnow⟩
      obtain ⟨r, hr⟩ := Option.ne_none_iff_exists'.mp hgate
      exact ⟨r, exec_refused_of_gate hnow hr⟩
    · exact ⟨_, exec_refused_of_early (Nat.not_le.mp hnow)⟩

/-- Settles O6: the gates are the table's rows and no meaning refuses past its gate; a masked edge only samples the
time. -/
theorem refusedExactlyWhenNotEnabled : Obligations.RefusedExactlyWhenNotEnabled :=
  ⟨exec_refused_iff_not_enabled, fun _ _ _ ⟨hpresent, hnow⟩ => exec_fcEdge_masked hpresent hnow,
    fun _ _ _ ⟨hpresent, hnow⟩ => exec_pdEdge_masked hpresent hnow⟩

end Sys2Proof.Machine
end

section
/-! 30_encoding.md Part B, 00_scope.md section 4: operation words in both directions, and the step that takes one. -/

namespace Sys2Proof.Machine

variable {i : Instr} {env : Byte} {now : Time}

/-! ### Decoding (R100, R106, R107) -/

theorem decodeOp_op (i : Instr) : decodeOp i.op i.env i.now = .ok i := by
  cases i <;> rfl

/-- The fields of every operation's word are its own, so the table finds its row. -/
theorem decodeWord_encode (i : Instr) : decodeWord (encode i) = .ok i := by
  obtain ⟨hop, henv, hnow⟩ := Laws.fields_of_append i.op i.env i.now
  rw [decodeWord, encode, hop, henv, hnow, decodeOp_op]

/-- The table names each operation in one row only, and hands both operand fields on. -/
theorem fields_of_decodeOp {op : Byte} (h : decodeOp op env now = .ok i) : i.op = op ∧ i.env = env ∧ i.now = now := by
  unfold decodeOp at h
  split at h <;> cases h <;> next hop => exact ⟨BitVec.eq_of_toNat_eq hop.symm, rfl, rfl⟩

/-- The three fields cover the word. -/
theorem append_fields (w : OpWord) : OpWord.op w ++ OpWord.env w ++ OpWord.now w = w := by
  apply BitVec.eq_of_getLsbD_eq
  intro k hk
  simp only [OpWord.op, OpWord.env, OpWord.now, BitVec.getLsbD_append, BitVec.getLsbD_extractLsb']
  grind

theorem encode_of_decodeWord {w : OpWord} (h : decodeWord w = .ok i) : encode i = w := by
  obtain ⟨hop, henv, hnow⟩ := fields_of_decodeOp h
  rw [encode, hop, henv, hnow, append_fields]

/-- Settles O1: the three fields of a word are the operation's, and they cover the word. -/
theorem decodeEncodeAgree : Obligations.DecodeEncodeAgree := ⟨decodeWord_encode, fun _ _ => encode_of_decodeWord⟩

/-- Settles O2, word by word. -/
theorem specWordsDecode : Obligations.SpecWordsDecode := by
  unfold Obligations.SpecWordsDecode
  decide

/-- A word is rejected by the name of its `op`. -/
theorem reject_of_decodeOp {op : Byte} {r : Reject} (h : decodeOp op env now = .error r) : r = .reservedOp op := by
  unfold decodeOp at h
  split at h <;> cases h
  rfl

theorem op_mem_opcodes (i : Instr) :
    i.op ∈ [0x00#8, 0x01#8, 0x02#8, 0x03#8, 0x10#8, 0x11#8, 0x12#8, 0x13#8, 0x14#8, 0x15#8] := by
  cases i <;> simp [Instr.op]

/-! ### Taking a word (R10, R107) -/

/-- Settles O4: the oldest word is fetched, decoded and run. -/
theorem stepRunsOfferedOperation : Obligations.StepRunsOfferedOperation := by
  intro s w rest i hp h
  simp [step, fetch_cons hp, h]

/-- Settles O3: every operation's `op` is one of the ten, so the word is rejected, by its name. -/
theorem reservedWordsRefused : Obligations.ReservedWordsRefused := by
  intro s w rest hp hreserved
  cases hd : decodeWord w with
  | ok i =>
    obtain ⟨hop, -, -⟩ := fields_of_decodeOp hd
    exact absurd (op_mem_opcodes i) (hop ▸ hreserved)
  | error r =>
    obtain rfl := reject_of_decodeOp hd
    simp [step, fetch_cons hp, hd, rejectWord, OpWord.op]

/-- Settles O5: there is no word to fetch. -/
theorem nothingOfferedNothingHappens : Obligations.NothingOfferedNothingHappens := by
  intro s hp
  rw [step, fetch_nil hp]

end Sys2Proof.Machine
end

section
/-! The state an operation leaves, in one equation, and what follows for every operation: time (00_scope.md R12), the
configuration (10_state.md R33), the two units (00_scope.md R3) and the contexts (60_exceptions.md R246). -/

namespace Sys2Proof.Machine

variable {i : Instr} {env : Byte} {now : Time} {s t : State}

/-! ### The state an operation leaves -/

/-- Unit FC as INIT latches it (43_system_ops.md R212). -/
def latchedFc (s : State) : FcUnit :=
  ⟨true, s.inputs.fcPin, s.inputs.fcMinFreq, s.inputs.fcMaxFreq, 0, Memory.zeroBelow s.params.ringCap s.fc.ring, 0,
    true⟩

/-- Unit FC with the delta of an edge appended (41_frequency_capture.md R141). -/
def edgedFc (now : Time) (s : State) : FcUnit :=
  { s.fc with prev := now, ring := Memory.write s.fc.ring s.fc.widx (now - s.fc.prev),
              widx := (s.fc.widx + 1) % s.params.ringCap }

/-- Unit FC drained (41_frequency_capture.md R148, R149). -/
def drainedFc (s : State) : FcUnit :=
  { s.fc with ring := Memory.zeroBelow s.params.ringCap s.fc.ring, widx := 0, irqEn := true }

/-- What an operation leaves of unit FC. -/
def fcAfter (i : Instr) (s : State) : FcUnit :=
  match i with
  | .fcInit env _ => if initFails env then s.fc else latchedFc s
  | .fcEdge _ now => if s.fc.irqEn then edgedFc now s else s.fc
  | .fcRead _ _ => drainedFc s
  | _ => s.fc

/-- Unit PD as INIT latches it (43_system_ops.md R214). -/
def latchedPd (s : State) : PdUnit :=
  ⟨true, s.inputs.pdPin, 0, Memory.zeroBelow Config.frameBytes s.pd.frame, 0, false, false, .idle, 0, false, false⟩

/-- The frame buffer after an edge at the given distance from the one before (42_protocol_decoder.md R180). -/
def frameAfterEdge (delta : Time) (pd : PdUnit) : Memory 8 :=
  if inBitWindow pd.ec && pulseBit delta then
    Memory.write pd.frame (frameByte pd.ec) (Memory.read pd.frame (frameByte pd.ec) ||| (1#8 <<< frameBit pd.ec))
  else pd.frame

/-- Unit PD with an edge marked, decoded and counted (42_protocol_decoder.md R180). -/
def edgedPd (now : Time) (pd : PdUnit) : PdUnit :=
  { pd with prev := now, frame := frameAfterEdge (now - pd.prev) pd, ec := pd.ec + 1 }

/-- Unit PD in the request pulse that starts at `now` (42_protocol_decoder.md R175). -/
def requestingPd (now : Time) (pd : PdUnit) : PdUnit :=
  { pd with prev := now, lineOut := false, lineDir := true, phase := .requesting, tPhase := now }

/-- Unit PD in the fresh listen window that starts at `now` (42_protocol_decoder.md R176, R178). -/
def listeningPd (now : Time) (pd : PdUnit) : PdUnit :=
  { pd with lineDir := false, frame := Memory.zeroBelow Config.frameBytes pd.frame, ec := 0, irqEn := true,
            phase := .listening, tPhase := now }

/-- Unit PD with its window closed, the cooldown set by a valid frame (42_protocol_decoder.md R184 to R191). -/
def closedPd (s : State) : PdUnit :=
  { s.pd with irqEn := false, phase := .idle, cooldown := if frameValid s then true else s.pd.cooldown }

/-- What an operation leaves of unit PD. -/
def pdAfter (i : Instr) (s : State) : PdUnit :=
  match i with
  | .pdInit env _ => if initFails env then s.pd else latchedPd s
  | .pdEdge _ now => if s.pd.irqEn then edgedPd now s.pd else s.pd
  | .pdRead _ now => if s.pd.cooldown then { s.pd with cooldown := false } else requestingPd now s.pd
  | .pdReqDone _ now => listeningPd now s.pd
  | .pdListenDone _ _ => closedPd s
  | _ => s.pd

/-- The state an operation leaves. -/
def after (i : Instr) (s : State) : State :=
  { s with fc := fcAfter i s, pd := pdAfter i s, lastNow := i.now, response := responseAfter i s }

/-- Where the operation appends to the ring, the cursor is inside it (00_scope.md R15). -/
def AppendsInside (i : Instr) (s : State) : Prop :=
  match i with
  | .fcEdge _ _ => s.fc.irqEn = true → s.fc.widx < s.params.ringCap
  | _ => True

/-! ### The phase a ready operation finds (R281) -/

theorem idle_of_ready (h : UnitReady (.pdRead env now) s) : s.pd.phase = .idle := h.2

theorem requesting_of_ready (h : UnitReady (.pdReqDone env now) s) : s.pd.phase = .requesting := by
  obtain ⟨-, hphase, -⟩ := h
  exact hphase

theorem listening_of_ready (h : UnitReady (.pdListenDone env now) s) : s.pd.phase = .listening := by
  obtain ⟨-, hphase, -⟩ := h
  exact hphase

/-! ### Every operation in one equation -/

theorem decodeEdge_pd (delta : Time) (s : State) :
    (decodeEdge delta s).pd = { s.pd with frame := frameAfterEdge delta s.pd } := by
  unfold decodeEdge frameAfterEdge
  split <;> rfl

theorem countEdge_decodeEdge_eq (now : Time) (s : State) :
    countEdge (decodeEdge (now - s.pd.prev) (markPd now s).2) = { s with pd := edgedPd now s.pd } := by
  apply State.eq_of_fields
  case hpd => exact congrArg (fun pd : PdUnit => { pd with ec := pd.ec + 1 }) (decodeEdge_pd ..)
  all_goals simp

/-- An operation that answers leaves `after`. -/
theorem exec_next_eq (h : exec i s = .next t) : t = after i s := by
  cases i with
  | fcInit env now =>
    obtain ⟨-, -, rfl⟩ := execFcInit_next_iff.mp h
    simp only [after, fcAfter, responseAfter, initAnswer]
    split <;> rfl
  | fcEdge env now =>
    obtain ⟨-, -, ⟨hirq, -, rfl⟩ | ⟨hirq, rfl⟩⟩ := (execFcEdge_next_iff (env := env)).mp h <;>
      simp only [after, fcAfter, hirq] <;> rfl
  | fcRead env now =>
    obtain ⟨-, -, rfl⟩ := execFcRead_next_iff.mp h
    exact reportTally_eq ..
  | fcWrite env now =>
    obtain ⟨-, -, rfl⟩ := (execFcWrite_next_iff (env := env)).mp h
    rfl
  | pdInit env now =>
    obtain ⟨-, -, rfl⟩ := execPdInit_next_iff.mp h
    simp only [after, pdAfter, responseAfter, initAnswer]
    split <;> rfl
  | pdEdge env now =>
    obtain ⟨-, -, rfl⟩ := (execPdEdge_next_iff (env := env)).mp h
    simp only [after, pdAfter]
    split
    · exact countEdge_decodeEdge_eq now (sample now s)
    · rfl
  | pdRead env now =>
    obtain ⟨-, -, rfl⟩ := (execPdRead_next_iff (env := env)).mp h
    simp only [after, pdAfter, responseAfter]
    split <;> rfl
  | pdWrite env now =>
    obtain ⟨-, -, rfl⟩ := (execPdWrite_next_iff (env := env)).mp h
    rfl
  | pdReqDone env now =>
    obtain ⟨-, -, rfl⟩ := (execPdReqDone_next_iff (env := env)).mp h
    rfl
  | pdListenDone env now =>
    obtain ⟨-, -, rfl⟩ := execPdListenDone_next_iff.mp h
    exact answerFrame_eq ..

theorem enabled_of_exec_next (h : exec i s = .next t) : Enabled i s := by
  by_contra hdisabled
  obtain ⟨r, hr⟩ := (exec_refused_iff_not_enabled i s).mpr hdisabled
  exact absurd (h.symm.trans hr) nofun

theorem appendsInside_of_exec_next (h : exec i s = .next t) : AppendsInside i s := by
  cases i with
  | fcEdge env now =>
    obtain ⟨-, -, ⟨-, hinside, -⟩ | ⟨hmask, -⟩⟩ := (execFcEdge_next_iff (env := env)).mp h
    · exact fun _ => hinside
    · exact fun hirq => absurd (hirq.symm.trans hmask) nofun
  | _ => trivial

/-- An enabled operation answers, unless it would append outside the ring. -/
theorem exec_of_enabled (h : Enabled i s) (hinside : AppendsInside i s) : exec i s = .next (after i s) := by
  obtain ⟨hready, hnow⟩ := h
  suffices hnext : ∃ t, exec i s = .next t by
    obtain ⟨t, ht⟩ := hnext
    rw [ht, exec_next_eq ht]
  cases i with
  | fcInit env now => exact ⟨_, execFcInit_next_iff.mpr ⟨hnow, hready, rfl⟩⟩
  | fcEdge env now =>
    cases hirq : s.fc.irqEn with
    | true => exact ⟨_, (execFcEdge_next_iff (env := env)).mpr ⟨hnow, hready, .inl ⟨hirq, hinside hirq, rfl⟩⟩⟩
    | false => exact ⟨_, exec_fcEdge_masked hready hnow hirq⟩
  | fcRead env now => exact ⟨_, exec_fcRead hready hnow⟩
  | fcWrite env now => exact ⟨_, (execFcWrite_next_iff (env := env)).mpr ⟨hnow, hready, rfl⟩⟩
  | pdInit env now => exact ⟨_, execPdInit_next_iff.mpr ⟨hnow, hready, rfl⟩⟩
  | pdEdge env now => exact ⟨_, (execPdEdge_next_iff (env := env)).mpr ⟨hnow, hready, rfl⟩⟩
  | pdRead env now => exact ⟨_, (execPdRead_next_iff (env := env)).mpr ⟨hnow, hready, rfl⟩⟩
  | pdWrite env now => exact ⟨_, (execPdWrite_next_iff (env := env)).mpr ⟨hnow, hready, rfl⟩⟩
  | pdReqDone env now =>
    obtain ⟨hpresent, hphase, hdelay⟩ := hready
    have hwithin := (delayWithin_iff_elapsed ..).mpr hdelay
    exact ⟨_, (execPdReqDone_next_iff (env := env)).mpr ⟨hnow, ⟨hpresent, hphase, hwithin⟩, rfl⟩⟩
  | pdListenDone env now =>
    obtain ⟨hpresent, hphase, hdelay⟩ := hready
    have hwithin := (delayWithin_iff_elapsed ..).mpr hdelay
    exact ⟨_, execPdListenDone_next_iff.mpr ⟨hnow, ⟨hpresent, hphase, hwithin⟩, rfl⟩⟩

/-- When an operation answers, and what it leaves. -/
theorem exec_next_iff : exec i s = .next t ↔ Enabled i s ∧ AppendsInside i s ∧ t = after i s :=
  ⟨fun h => ⟨enabled_of_exec_next h, appendsInside_of_exec_next h, exec_next_eq h⟩,
    fun ⟨henabled, hinside, heq⟩ => heq ▸ exec_of_enabled henabled hinside⟩

/-! ### Time (R12) -/

/-- Settles O8: an operation that answers was in time and leaves its own. -/
theorem timeNeverDecreases : Obligations.TimeNeverDecreases := by
  refine ⟨fun i s => exec_refused_of_early, fun i s t h => ?_⟩
  obtain ⟨⟨-, hnow⟩, -, rfl⟩ := exec_next_iff.mp h
  exact ⟨hnow, rfl⟩

/-! ### The configuration (R33) -/

theorem fcAfter_of_present (hready : UnitReady i s) (hpresent : s.fc.present = true) :
    (fcAfter i s).present = true ∧ (fcAfter i s).pin = s.fc.pin ∧ (fcAfter i s).minFreq = s.fc.minFreq ∧
      (fcAfter i s).maxFreq = s.fc.maxFreq := by
  cases i with
  | fcInit env now => exact absurd (hpresent.symm.trans hready) nofun
  | fcEdge env now => simp only [fcAfter]; split <;> exact ⟨hpresent, rfl, rfl, rfl⟩
  | _ => exact ⟨hpresent, rfl, rfl, rfl⟩

theorem pdAfter_of_present (hready : UnitReady i s) (hpresent : s.pd.present = true) :
    (pdAfter i s).present = true ∧ (pdAfter i s).pin = s.pd.pin := by
  cases i with
  | pdInit env now => exact absurd (hpresent.symm.trans hready) nofun
  | pdEdge env now | pdRead env now => simp only [pdAfter]; split <;> exact ⟨hpresent, rfl⟩
  | _ => exact ⟨hpresent, rfl⟩

/-- Only INIT brings a unit up. -/
theorem fcAfter_of_absent (hready : UnitReady i s) (habsent : s.fc.present = false) :
    fcAfter i s = s.fc ∨ fcAfter i s = latchedFc s := by
  cases i with
  | fcInit env now => simp only [fcAfter]; split <;> simp
  | fcEdge env now | fcRead env now => exact absurd (habsent.symm.trans hready) nofun
  | _ => exact .inl rfl

theorem pdAfter_of_absent (hready : UnitReady i s) (habsent : s.pd.present = false) :
    pdAfter i s = s.pd ∨ pdAfter i s = latchedPd s := by
  cases i with
  | pdInit env now => simp only [pdAfter]; split <;> simp
  | pdEdge env now => exact absurd (habsent.symm.trans hready) nofun
  | pdRead env now | pdReqDone env now | pdListenDone env now => exact absurd (habsent.symm.trans hready.1) nofun
  | _ => exact .inl rfl

/-- Settles O57: a present unit keeps its configuration, an absent one stays as it is or is latched. -/
theorem configurationImmutableAfterInit : Obligations.ConfigurationImmutableAfterInit := by
  intro i s t h
  obtain ⟨⟨hready, -⟩, -, rfl⟩ := exec_next_iff.mp h
  refine ⟨rfl, rfl, fcAfter_of_present hready, pdAfter_of_present hready, fun habsent hup => ?fc,
    fun habsent hup => ?pd⟩
  case fc =>
    rcases fcAfter_of_absent hready habsent with hfc | hfc
    · exact absurd (habsent.symm.trans ((congrArg FcUnit.present hfc).symm.trans hup)) nofun
    · simp [after, hfc, latchedFc]
  case pd =>
    rcases pdAfter_of_absent hready habsent with hpd | hpd
    · exact absurd (habsent.symm.trans ((congrArg PdUnit.present hpd).symm.trans hup)) nofun
    · simp [after, hpd, latchedPd]

/-! ### The two units (R3) -/

/-- Nothing an operation of unit FC reads or writes is in unit PD. -/
theorem exec_of_unitOf_fc (pd : PdUnit) (hunit : unitOf i = .fc) (h : exec i s = .next t) :
    exec i { s with pd := pd } = .next { t with pd := pd } := by
  obtain ⟨⟨hready, hnow⟩, hinside, rfl⟩ := exec_next_iff.mp h
  cases i with
  | fcInit env now | fcEdge env now | fcRead env now | fcWrite env now =>
    exact exec_next_iff.mpr ⟨⟨hready, hnow⟩, hinside, rfl⟩
  | _ => cases hunit

/-- Nothing an operation of unit PD reads or writes is in unit FC. -/
theorem exec_of_unitOf_pd (fc : FcUnit) (hunit : unitOf i = .pd) (h : exec i s = .next t) :
    exec i { s with fc := fc } = .next { t with fc := fc } := by
  obtain ⟨⟨hready, hnow⟩, -, rfl⟩ := exec_next_iff.mp h
  cases i with
  | fcInit env now | fcEdge env now | fcRead env now | fcWrite env now => cases hunit
  | _ => exact exec_next_iff.mpr ⟨⟨hready, hnow⟩, trivial, rfl⟩

/-- Settles O58: what an operation leaves is read off its own unit, the parameters and the inputs. -/
theorem unitsAreIndependent : Obligations.UnitsAreIndependent :=
  ⟨fun _ _ _ h => ⟨exec_next_pd_of_unitOf_fc h, exec_next_fc_of_unitOf_pd h⟩,
    fun _ _ _ => exec_of_unitOf_fc, fun _ _ _ => exec_of_unitOf_pd⟩

/-! ### The contexts (R246) -/

/-- An edge writes at most the byte of its own frame bit. -/
theorem read_frameAfterEdge_other (delta : Time) (pd : PdUnit) {j : Nat} (h : j ≠ (pd.ec - 2) / 8) :
    Memory.read (frameAfterEdge delta pd) j = Memory.read pd.frame j := by
  unfold frameAfterEdge
  split
  · exact Memory.read_write_other _ _ _ _ h
  · rfl

theorem fc_prev_of_consumer (hs : Inv s) (h : exec i s = .next t) (hcontext : (issuer i).context = .consumer) :
    t.fc.prev = s.fc.prev := by
  rw [exec_next_fc_prev h]
  cases i with
  | fcInit env now =>
    obtain ⟨⟨habsent, -⟩, -⟩ := exec_next_iff.mp h
    obtain ⟨-, -, -, hreset, -⟩ := hs
    have hprev : s.fc.prev = 0#64 := congrArg FcUnit.prev (hreset habsent)
    simp only [fcPrevAfter, hprev, ite_self]
  | fcEdge env now => cases hcontext
  | _ => rfl

/-- Settles O60: an edge writes one entry and one counter of its unit; `FC.INIT` finds the reset value it writes. -/
theorem contextsWriteOnlyTheirOwn : Obligations.ContextsWriteOnlyTheirOwn := by
  refine ⟨fun i s t h hissuer => ?fc, fun i s t h hissuer => ?pd, fun i s t => fc_prev_of_consumer⟩
  case fc =>
    cases i with
    | fcEdge env now =>
      obtain ⟨-, -, rfl⟩ := exec_next_iff.mp h
      simp only [after, fcAfter]
      split
      · exact ⟨rfl, fun j hj => Memory.read_write_other _ _ _ _ hj⟩
      · exact ⟨rfl, fun _ _ => rfl⟩
    | _ => cases hissuer
  case pd =>
    cases i with
    | pdEdge env now =>
      obtain ⟨-, -, rfl⟩ := exec_next_iff.mp h
      simp only [after, pdAfter]
      split
      · exact ⟨rfl, fun j hj => read_frameAfterEdge_other _ _ hj⟩
      · exact ⟨rfl, fun _ _ => rfl⟩
    | _ => cases hissuer

end Sys2Proof.Machine
end

section
/-! 42_protocol_decoder.md, 30_encoding.md Part A: the frame buffer bit by bit, the pulse code and the checksum. -/

namespace Sys2Proof.Machine

/-! ### The frame buffer, bit by bit (20_memory.md R64) -/

/-- The byte and bit of edge `n + 2` are those of frame bit `n`. -/
theorem frameBitAt_write_or (m : Memory 8) {ec : Nat} (hec : 2 ≤ ec) (n : Nat) :
    frameBitAt (Memory.write m (frameByte ec) (Memory.read m (frameByte ec) ||| (1#8 <<< frameBit ec))) n =
      (frameBitAt m n || decide (ec = n + 2)) := by
  have hbyte : frameByte ec = (ec - 2) / 8 := rfl
  have hbit : frameBit ec = 7 - (ec - 2) % 8 := rfl
  simp only [frameBitAt, Memory.read_write, hbyte, hbit]
  split
  · next hsame =>
    have hone : (1#8 <<< (7 - (ec - 2) % 8)).getLsbD (7 - n % 8) = decide (ec = n + 2) := by
      rw [← BitVec.twoPow_eq, BitVec.getLsbD_twoPow, ← Bool.decide_and, decide_eq_decide]
      omega
    rw [BitVec.getLsbD_or, hone, hsame]
  · next hother =>
    have hne : ec ≠ n + 2 := by omega
    simp [hne]

/-- Settles O36: whole microseconds above 100 are 101000 ns or more. -/
theorem pulseIsOneFromThreshold : Obligations.PulseIsOneFromThreshold := by
  intro delta
  have hpulse : pulseBit delta = true ↔ 100 < delta.toNat / 1000 := decide_eq_true_iff
  exact ⟨hpulse, hpulse.trans (by omega)⟩

/-- An edge sets its own frame bit, if its pulse is long. -/
theorem frameBitAt_frameAfterEdge (delta : Time) (pd : PdUnit) {n : Nat} (hn : n < 40) :
    frameBitAt (frameAfterEdge delta pd) n =
      (frameBitAt pd.frame n || decide (pd.ec = n + 2 ∧ 100 < delta.toNat / 1000)) := by
  unfold frameAfterEdge
  split
  · next hbit =>
    obtain ⟨hwindow, hlong⟩ := Bool.and_eq_true_iff.mp hbit
    obtain ⟨hec, -⟩ := (inBitWindow_iff _).mp hwindow
    have hdelta : 100 < delta.toNat / 1000 := of_decide_eq_true hlong
    simp only [frameBitAt_write_or _ hec, hdelta, and_true]
  · next hbit =>
    have hnone : ¬(pd.ec = n + 2 ∧ 100 < delta.toNat / 1000) := fun ⟨hec, hdelta⟩ =>
      hbit (Bool.and_eq_true_iff.mpr ⟨(inBitWindow_iff _).mpr (by omega), decide_eq_true hdelta⟩)
    simp only [hnone, decide_false, Bool.or_false]

/-- An edge leaves the bytes beyond the frame alone. -/
theorem read_frameAfterEdge_beyond (delta : Time) (pd : PdUnit) {j : Nat} (hj : 5 ≤ j) :
    Memory.read (frameAfterEdge delta pd) j = Memory.read pd.frame j := by
  unfold frameAfterEdge
  split
  · next hbit =>
    have hbyte : frameByte pd.ec < 5 := frameByte_lt pd.ec (Bool.and_eq_true_iff.mp hbit).1
    exact Memory.read_write_other _ _ _ _ (by omega)
  · rfl

/-- Settles O35: which bit an edge sets, and what stands in `after` of a delivered edge. -/
theorem pdEdgeDecodesOneBit : Obligations.PdEdgeDecodesOneBit := by
  intro s env now hpresent hnow hirq
  have hafter : (after (.pdEdge env now) s).pd = edgedPd now s.pd := if_pos hirq
  refine ⟨_, exec_of_enabled ⟨hpresent, hnow⟩ trivial, ?_⟩
  rw [hafter]
  refine ⟨fun n hn => frameBitAt_frameAfterEdge _ _ hn, fun j hj => read_frameAfterEdge_beyond _ _ hj, ?_⟩
  exact State.eq_of_fields rfl hafter rfl rfl rfl rfl rfl

/-- Five bytes are spelled by their forty bits in wire order. -/
theorem bytes_eq_of_bits_eq {g g' : Nat → Byte}
    (h : ∀ n < 40, (g (n / 8)).getLsbD (7 - n % 8) = (g' (n / 8)).getLsbD (7 - n % 8)) {j : Nat} (hj : j < 5) :
    g j = g' j := by
  refine BitVec.eq_of_getLsbD_eq fun k hk => ?_
  have hbit := h (8 * j + (7 - k)) (by omega)
  have hbyte : (8 * j + (7 - k)) / 8 = j := by omega
  have hplace : 7 - (8 * j + (7 - k)) % 8 = k := by omega
  rwa [hbyte, hplace] at hbit

/-- A frame buffer that holds the bits of a frame holds the frame. -/
theorem loadFrame_eq_of_bits {m : Memory 8} {f : Frame} (h : ∀ n < 40, frameBitAt m n = wireBit f n) :
    loadFrame m = f := by
  have hbyte {j : Nat} (hj : j < 5) : Memory.read m j = [f.b0, f.b1, f.b2, f.b3, f.b4].getD j 0 :=
    bytes_eq_of_bits_eq (g := Memory.read m) (g' := fun j => [f.b0, f.b1, f.b2, f.b3, f.b4].getD j 0) h hj
  simp [loadFrame, hbyte]

/-! ### The checksum (R93, R186) -/

/-- A byte with one bit flipped is another byte. -/
theorem toNat_xor_one_shiftLeft_ne (x : Byte) {b : Nat} (hb : b < 8) : (x ^^^ (1#8 <<< b)).toNat ≠ x.toNat := by
  intro h
  have hbit := congrArg (fun y : Byte => y.getLsbD b) (BitVec.eq_of_toNat_eq h)
  simp [← BitVec.twoPow_eq, hb] at hbit

theorem Frame.checksumOk_iff (f : Frame) :
    f.checksumOk = true ↔ (f.b0.toNat + f.b1.toNat + f.b2.toNat + f.b3.toNat) % 256 = f.b4.toNat := decide_eq_true_iff

/-- Two frames that differ in one byte do not both match: a byte's change is less than 256. -/
theorem Frame.checksumOk_flip (f : Frame) {b : Nat} (hb : b < 8) (h : f.checksumOk = true) :
    ({ f with b0 := f.b0 ^^^ (1#8 <<< b) } : Frame).checksumOk = false ∧
    ({ f with b1 := f.b1 ^^^ (1#8 <<< b) } : Frame).checksumOk = false ∧
    ({ f with b2 := f.b2 ^^^ (1#8 <<< b) } : Frame).checksumOk = false ∧
    ({ f with b3 := f.b3 ^^^ (1#8 <<< b) } : Frame).checksumOk = false ∧
    ({ f with b4 := f.b4 ^^^ (1#8 <<< b) } : Frame).checksumOk = false := by
  have hflip (x : Byte) := toNat_xor_one_shiftLeft_ne x hb
  have h0 := hflip f.b0
  have h1 := hflip f.b1
  have h2 := hflip f.b2
  have h3 := hflip f.b3
  have h4 := hflip f.b4
  simp only [← Bool.not_eq_true, Frame.checksumOk_iff] at h ⊢
  exact ⟨by omega, by omega, by omega, by omega, by omega⟩

/-- Settles O40: the conditions are `frameValid`'s own; a flipped bit changes one byte, and with it the sum or its
check. -/
theorem checksumCatchesEveryFlippedBit : Obligations.ChecksumCatchesEveryFlippedBit := by
  refine ⟨fun s => frameValid_iff, fun f b => f.checksumOk_flip, ?zeros⟩
  case zeros =>
    rintro f rfl
    decide

/-! ### The text of a frame (R94, R98) -/

theorem decInt_temperature (f : Frame) :
    decInt f.temperature =
      (if 128 ≤ f.b2.toNat ∧ f.magnitude ≠ 0 then [0x2D#8] else []) ++ dec f.magnitude := by
  have hsign : f.b2.getLsbD 7 = true ↔ 128 ≤ f.b2.toNat := by
    have hlt := f.b2.isLt
    rw [BitVec.getLsbD, Nat.testBit_eq_decide_div_mod_eq, decide_eq_true_iff]
    omega
  simp only [f.temperature_eq, hsign]
  by_cases hneg : 128 ≤ f.b2.toNat
  · by_cases hzero : f.magnitude = 0
    · simp [hneg, hzero, decInt]
    · rw [if_pos hneg, if_pos ⟨hneg, hzero⟩, decInt_neg_natCast hzero]
      rfl
  · rw [if_neg hneg, if_neg fun h => hneg h.1, decInt_natCast]
    rfl

/-- The text of a frame in plain arithmetic of its bytes. -/
theorem Frame.pdText_eq (f : Frame) :
    let magnitude := 256 * (f.b2.toNat % 128) + f.b3.toNat
    pdText f.humidity f.temperature =
      [0x68#8, 0x3D#8] ++ dec (256 * f.b0.toNat + f.b1.toNat) ++ [0x20#8, 0x74#8, 0x3D#8] ++
        (if 128 ≤ f.b2.toNat ∧ magnitude ≠ 0 then [0x2D#8] else []) ++ dec magnitude ++ [0x0A#8] := by
  rw [pdText, f.humidity_eq, decInt_temperature, f.magnitude_eq, ← List.append_assoc]

/-- Settles O38: the frame is valid, so its text is delivered and the cooldown set. -/
theorem pdListenDoneReportsFields : Obligations.PdListenDoneReportsFields := by
  intro s env now hpresent hphase hnow hmin hmax hec hsum
  have hvalid : frameValid s = true := frameValid_iff.mpr ⟨hec, decide_eq_true hsum⟩
  have htext := (loadFrame s.pd.frame).pdText_eq
  have hexec := exec_pdListenDone (env := env) hpresent hphase hnow hmin hmax
  rwa [afterListenDone, frameAnswer, if_pos hvalid, if_pos hvalid, htext] at hexec

end Sys2Proof.Machine
end

section
/-! 10_state.md section 8: the invariant at reset and after every step, and what it gives at the next operation. -/

namespace Sys2Proof.Machine

variable {i : Instr} {env : Byte} {now lastNow : Time} {s t : State} {fc : FcUnit} {pd : PdUnit} {cap : Nat}

/-! ### Unit FC (R41 items 1, 2 and 6) -/

/-- The invariant of unit FC, on the unit alone. -/
def FcUnitInv (cap : Nat) (lastNow : Time) (fc : FcUnit) : Prop :=
  fc.widx < cap ∧ fc.irqEn = true ∧ Memory.wf fc.ring ∧ (∀ c ∈ fc.ring, c.1 < cap) ∧
    Memory.total fc.ring ≤ fc.prev.toNat ∧ fc.prev.toNat ≤ lastNow.toNat

theorem fcInv_iff : FcInv s ↔ FcUnitInv s.params.ringCap s.lastNow s.fc := Iff.rfl

theorem FcUnitInv.later (h : FcUnitInv cap lastNow fc) (hnow : lastNow.toNat ≤ now.toNat) : FcUnitInv cap now fc := by
  obtain ⟨hwidx, hirq, hcanon, hindex, htotal, hprev⟩ := h
  exact ⟨hwidx, hirq, hcanon, hindex, htotal, hprev.trans hnow⟩

/-- An empty ring has no entry to bound. -/
theorem fcUnitInv_of_ring_nil (hcap : 0 < cap) (hring : fc.ring = []) (hwidx : fc.widx = 0) (hirq : fc.irqEn = true)
    (hprev : fc.prev.toNat ≤ now.toNat) : FcUnitInv cap now fc := by
  exact ⟨hwidx ▸ hcap, hirq, hring ▸ Memory.wf_nil, by simp [hring], by simp [hring, Memory.total], hprev⟩

/-- The delta that an edge appends is what the previous mark moves by. -/
theorem total_write_delta_le {ring : Memory 64} {prev : Time} (j : Nat) (htotal : Memory.total ring ≤ prev.toNat)
    (hprev : prev.toNat ≤ now.toNat) : Memory.total (Memory.write ring j (now - prev)) ≤ now.toNat := by
  have hwrite := Memory.total_write_le ring j (now - prev)
  have hdelta : (now - prev).toNat = now.toNat - prev.toNat := BitVec.toNat_sub_of_le (BitVec.le_def.mpr hprev)
  omega

theorem fcUnitInv_edgedFc (h : FcUnitInv s.params.ringCap now s.fc) :
    FcUnitInv s.params.ringCap now (edgedFc now s) := by
  obtain ⟨hwidx, hirq, hcanon, hindex, htotal, hprev⟩ := h
  exact ⟨Nat.mod_lt _ (Nat.zero_lt_of_lt hwidx), hirq, Memory.wf_write _ _ hcanon, Memory.index_write _ hwidx hindex,
    total_write_delta_le _ htotal hprev, Nat.le_refl _⟩

theorem fcUnitInv_fcAfter (h : FcUnitInv s.params.ringCap i.now s.fc) :
    FcUnitInv s.params.ringCap i.now (fcAfter i s) := by
  have ⟨hwidx, hirq, _, hindex, _, hprev⟩ := h
  have hcap := Nat.zero_lt_of_lt hwidx
  have hnil : Memory.zeroBelow s.params.ringCap s.fc.ring = [] := Memory.zeroBelow_eq_nil hindex
  cases i with
  | fcInit env now =>
    simp only [fcAfter]
    split
    · exact h
    · exact fcUnitInv_of_ring_nil hcap hnil rfl rfl (Nat.zero_le _)
  | fcEdge env now =>
    have hedged : fcAfter (.fcEdge env now) s = edgedFc now s := if_pos hirq
    exact hedged ▸ fcUnitInv_edgedFc h
  | fcRead env now => exact fcUnitInv_of_ring_nil hcap hnil rfl rfl hprev
  | _ => exact h

/-! ### Unit PD (R41 items 3 to 5) -/

/-- The invariant of unit PD, on the unit alone. -/
def PdUnitInv (lastNow : Time) (pd : PdUnit) : Prop :=
  (pd.irqEn = true ↔ pd.phase = .listening) ∧ (pd.lineDir = true ↔ pd.phase = .requesting) ∧ pd.lineOut = false ∧
    (pd.cooldown = true → pd.phase = .idle) ∧ Memory.wf pd.frame ∧ (∀ c ∈ pd.frame, c.1 < Config.frameBytes) ∧
    (∀ n < Config.frameBits, frameBitAt pd.frame n = true → n + Config.handshakeEdges < pd.ec) ∧
    pd.prev.toNat ≤ lastNow.toNat ∧ pd.tPhase.toNat ≤ lastNow.toNat

theorem pdInv_iff : PdInv s ↔ PdUnitInv s.lastNow s.pd := Iff.rfl

theorem PdUnitInv.later (h : PdUnitInv lastNow pd) (hnow : lastNow.toNat ≤ now.toNat) : PdUnitInv now pd := by
  obtain ⟨hirq, hdir, hout, hcool, hcanon, hindex, hbits, hprev, hphase⟩ := h
  exact ⟨hirq, hdir, hout, hcool, hcanon, hindex, hbits, hprev.trans hnow, hphase.trans hnow⟩

theorem frameBitAt_nil (n : Nat) : frameBitAt [] n = false := BitVec.getLsbD_zero

theorem pdUnitInv_latchedPd (h : PdUnitInv now s.pd) : PdUnitInv now (latchedPd s) := by
  obtain ⟨-, -, -, -, -, hindex, -⟩ := h
  have hnil : Memory.zeroBelow Config.frameBytes s.pd.frame = [] := Memory.zeroBelow_eq_nil hindex
  simp only [PdUnitInv, latchedPd, hnil, frameBitAt_nil]
  exact ⟨by simp, by simp, trivial, nofun, Memory.wf_nil, nofun, nofun, Nat.zero_le _, Nat.zero_le _⟩

/-- A new bit belongs to the edge that is being counted. -/
theorem bits_counted_of_edge (delta : Time) (hbits : ∀ n < 40, frameBitAt pd.frame n = true → n + 2 < pd.ec) :
    ∀ n < 40, frameBitAt (frameAfterEdge delta pd) n = true → n + 2 < pd.ec + 1 := by
  intro n hn hbit
  rw [frameBitAt_frameAfterEdge delta pd hn, Bool.or_eq_true, decide_eq_true_iff] at hbit
  rcases hbit with hbefore | ⟨hec, -⟩
  · exact Nat.lt_succ_of_lt (hbits n hn hbefore)
  · omega

theorem wf_frameAfterEdge (delta : Time) (h : Memory.wf pd.frame) : Memory.wf (frameAfterEdge delta pd) := by
  unfold frameAfterEdge
  split
  · exact Memory.wf_write _ _ h
  · exact h

theorem index_frameAfterEdge (delta : Time) (h : ∀ c ∈ pd.frame, c.1 < Config.frameBytes) :
    ∀ c ∈ frameAfterEdge delta pd, c.1 < Config.frameBytes := by
  unfold frameAfterEdge
  split
  · next hbit => exact Memory.index_write _ (frameByte_lt _ (Bool.and_eq_true_iff.mp hbit).1) h
  · exact h

theorem pdUnitInv_edgedPd (h : PdUnitInv now pd) : PdUnitInv now (edgedPd now pd) := by
  obtain ⟨hirq, hdir, hout, hcool, hcanon, hindex, hbits, -, hphase⟩ := h
  exact ⟨hirq, hdir, hout, hcool, wf_frameAfterEdge _ hcanon, index_frameAfterEdge _ hindex,
    bits_counted_of_edge _ hbits, Nat.le_refl _, hphase⟩

theorem pdUnitInv_clear_cooldown (h : PdUnitInv now pd) : PdUnitInv now { pd with cooldown := false } := by
  obtain ⟨hirq, hdir, hout, -, hcanon, hindex, hbits, hprev, hphase⟩ := h
  exact ⟨hirq, hdir, hout, nofun, hcanon, hindex, hbits, hprev, hphase⟩

theorem pdUnitInv_requestingPd (h : PdUnitInv now pd) (hidle : pd.phase = .idle) (hcooldown : pd.cooldown = false) :
    PdUnitInv now (requestingPd now pd) := by
  obtain ⟨hirq, -, -, -, hcanon, hindex, hbits, -, -⟩ := h
  have hmasked : ¬ pd.irqEn = true := by simp [hirq, hidle]
  simp only [PdUnitInv, requestingPd, hcooldown]
  exact ⟨by simp [hmasked], by simp, trivial, nofun, hcanon, hindex, hbits, Nat.le_refl _, Nat.le_refl _⟩

theorem pdUnitInv_listeningPd (h : PdUnitInv now pd) (hrequesting : pd.phase = .requesting) :
    PdUnitInv now (listeningPd now pd) := by
  obtain ⟨-, -, hout, hcool, -, hindex, -, hprev, -⟩ := h
  have hnil : Memory.zeroBelow Config.frameBytes pd.frame = [] := Memory.zeroBelow_eq_nil hindex
  have hcooldown : ¬ pd.cooldown = true := fun hc => absurd (hrequesting.symm.trans (hcool hc)) nofun
  simp only [PdUnitInv, listeningPd, hnil, frameBitAt_nil]
  exact ⟨by simp, by simp, hout, fun hc => absurd hc hcooldown, Memory.wf_nil, nofun, nofun, hprev, Nat.le_refl _⟩

theorem pdUnitInv_closedPd (h : PdUnitInv now s.pd) (hlistening : s.pd.phase = .listening) :
    PdUnitInv now (closedPd s) := by
  obtain ⟨-, hdir, hout, -, hcanon, hindex, hbits, hprev, hphase⟩ := h
  have hinput : ¬ s.pd.lineDir = true := by simp [hdir, hlistening]
  simp only [PdUnitInv, closedPd]
  exact ⟨by simp, by simp [hinput], hout, fun _ => trivial, hcanon, hindex, hbits, hprev, hphase⟩

theorem pdUnitInv_pdAfter (h : PdUnitInv i.now s.pd) (hready : UnitReady i s) : PdUnitInv i.now (pdAfter i s) := by
  cases i with
  | pdInit env now =>
    simp only [pdAfter]
    split
    · exact h
    · exact pdUnitInv_latchedPd h
  | pdEdge env now =>
    simp only [pdAfter]
    split
    · exact pdUnitInv_edgedPd h
    · exact h
  | pdRead env now =>
    simp only [pdAfter]
    split
    · exact pdUnitInv_clear_cooldown h
    · next hcooldown => exact pdUnitInv_requestingPd h (idle_of_ready hready) (Bool.eq_false_iff.mpr hcooldown)
  | pdReqDone env now => exact pdUnitInv_listeningPd h (requesting_of_ready hready)
  | pdListenDone env now => exact pdUnitInv_closedPd h (listening_of_ready hready)
  | _ => exact h

/-! ### The machine -/

/-- A unit that is absent after an operation was absent before it, and INIT left it alone. -/
theorem absentAtReset_after (h : AbsentAtReset s) (hready : UnitReady i s) : AbsentAtReset (after i s) := by
  obtain ⟨hfc, hpd⟩ := h
  refine ⟨fun habsent => ?fc, fun habsent => ?pd⟩
  case fc =>
    have hbefore : s.fc.present = false :=
      Bool.eq_false_iff.mpr fun hp => absurd (habsent.symm.trans (fcAfter_of_present hready hp).1) nofun
    rcases fcAfter_of_absent hready hbefore with heq | heq
    · exact heq.trans (hfc hbefore)
    · exact absurd (habsent.symm.trans (congrArg FcUnit.present heq)) nofun
  case pd =>
    have hbefore : s.pd.present = false :=
      Bool.eq_false_iff.mpr fun hp => absurd (habsent.symm.trans (pdAfter_of_present hready hp).1) nofun
    rcases pdAfter_of_absent hready hbefore with heq | heq
    · exact heq.trans (hpd hbefore)
    · exact absurd (habsent.symm.trans (congrArg PdUnit.present heq)) nofun

theorem exec_keeps_inv (hs : Inv s) (h : exec i s = .next t) : Inv t := by
  obtain ⟨⟨hready, hnow⟩, -, rfl⟩ := exec_next_iff.mp h
  obtain ⟨hwf, hfc, hpd, habsent⟩ := hs
  have hfcNow := (fcInv_iff.mp hfc).later hnow
  have hpdNow := (pdInv_iff.mp hpd).later hnow
  exact ⟨hwf, fcUnitInv_fcAfter hfcNow, pdUnitInv_pdAfter hpdNow hready, absentAtReset_after habsent hready⟩

/-- The invariant does not speak of the offered words. -/
theorem inv_with_pending (hs : Inv s) (words : List OpWord) : Inv { s with pending := words } := hs

/-- Settles O14: each unit keeps its part through every operation, and taking a word touches neither. -/
theorem stepKeepsMachineInvariant : Obligations.StepKeepsMachineInvariant := by
  intro s t hs h
  rcases step_cases s with ⟨-, hstep⟩ | ⟨w, rest, r, -, -, hstep⟩ | ⟨w, rest, i, -, -, hstep⟩
  · obtain rfl := Host.Outcome.next.inj (hstep.symm.trans h)
    exact hs
  · exact absurd (hstep.symm.trans h) nofun
  · exact exec_keeps_inv (inv_with_pending hs rest) (hstep.symm.trans h)

/-- What every operation of a run keeps, the run keeps. -/
theorem runOps_keeps {P : State → Prop} {ops : List Instr} (hkeeps : ∀ i ∈ ops, ∀ s t, exec i s = .next t → P s → P t)
    (hs : P s) (h : runOps ops s = some t) : P t := by
  induction ops generalizing s with
  | nil => exact Option.some.inj h ▸ hs
  | cons i ops ih =>
    obtain ⟨u, hu, hrest⟩ := runOps_cons_some.mp h
    exact ih (fun j hj => hkeeps j (List.mem_cons_of_mem i hj)) (hkeeps i List.mem_cons_self s u hu hs) hrest

/-- Settles O13: both memories are empty, both times 0 and both units absent. -/
theorem resetMeetsMachineInvariant : Obligations.ResetMeetsMachineInvariant := by
  unfold Obligations.ResetMeetsMachineInvariant
  decide

/-! ### Enabled operations complete (R281) -/

theorem appendsInside_of_inv (hs : Inv s) : AppendsInside i s := by
  obtain ⟨-, ⟨hwidx, -⟩, -⟩ := hs
  cases i with
  | fcEdge env now => exact fun _ => hwidx
  | _ => trivial

theorem exec_of_inv (hs : Inv s) (h : Enabled i s) : exec i s = .next (after i s) :=
  exec_of_enabled h (appendsInside_of_inv hs)

/-- Settles O7: what is left to ask of an enabled operation is a cursor inside the ring. -/
theorem enabledOperationsComplete : Obligations.EnabledOperationsComplete :=
  fun _ _ hs h => ⟨_, exec_of_inv hs h, rfl, rfl⟩

/-- An operation is refused or, under the invariant, answers. -/
theorem exec_ne_fault (hs : Inv s) (r : Fault) : exec i s ≠ .fault r := by
  intro h
  by_cases henabled : Enabled i s
  · exact absurd (h.symm.trans (exec_of_inv hs henabled)) nofun
  · obtain ⟨r', hr'⟩ := (exec_refused_iff_not_enabled i s).mpr henabled
    exact absurd (h.symm.trans hr') nofun

/-- Settles O15: only an operation can fault. -/
theorem noIndexOutsideTheRing : Obligations.NoIndexOutsideTheRing := by
  intro s r hs h
  rcases step_cases s with ⟨-, hstep⟩ | ⟨w, rest, r', -, -, hstep⟩ | ⟨w, rest, i, -, -, hstep⟩
  · exact absurd (hstep.symm.trans h) nofun
  · exact absurd (hstep.symm.trans h) nofun
  · exact exec_ne_fault (inv_with_pending hs rest) r (hstep.symm.trans h)

end Sys2Proof.Machine
end

section
/-! 41_frequency_capture.md: what `FC.EDGE` leaves, the result of `FC.READ` as a list of accepted pairs, and what
follows from it; 43_system_ops.md: what `FC.INIT` leaves. -/

namespace Sys2Proof.Machine

variable {i : Instr} {env : Byte} {now : Time} {s t u : State} {minFreq maxFreq : Reg32} {ring : Memory 64} {n : Nat}

/-! ### FC.EDGE and FC.INIT -/

/-- Settles O19: the entry written is the one at the cursor. -/
theorem fcEdgeAppendsDelta : Obligations.FcEdgeAppendsDelta := by
  intro s env now hpresent hnow hirq hwidx
  have hafter : (after (.fcEdge env now) s).fc = edgedFc now s := if_pos hirq
  refine ⟨_, exec_of_enabled ⟨hpresent, hnow⟩ fun _ => hwidx, ?_⟩
  rw [hafter]
  exact ⟨Memory.read_write_same .., fun j hj => Memory.read_write_other _ _ _ _ hj,
    State.eq_of_fields hafter rfl rfl rfl rfl rfl rfl⟩

/-- An absent unit that meets the invariant holds the reset values already. -/
theorem latchedFc_of_inv (hs : Inv s) (habsent : s.fc.present = false) :
    latchedFc s = { s.fc with present := true, pin := s.inputs.fcPin, minFreq := s.inputs.fcMinFreq,
                              maxFreq := s.inputs.fcMaxFreq } := by
  obtain ⟨-, -, -, hreset, -⟩ := hs
  rw [latchedFc, hreset habsent]
  rfl

/-- Settles O48: what INIT latches, and that the invariant has the rest in place. -/
theorem fcInitLatchesConfiguration : Obligations.FcInitLatchesConfiguration := by
  intro s env now habsent hnow henv
  refine ⟨_, exec_fcInit_of_no_fault habsent hnow henv, fun k hk => ?below, fun k hk => ?above, rfl,
    fun hs => (latchedFc_of_inv hs habsent : latchedFc s = _)⟩
  case below => exact (Memory.read_zeroBelow ..).trans (if_pos hk)
  case above => exact (Memory.read_zeroBelow ..).trans (if_neg (Nat.not_lt.mpr hk))

/-! ### The accepted pairs (R146, R147) -/

/-- The pairs, of the first `n`, whose period is accepted. -/
def acceptedPairs (minFreq maxFreq : Reg32) (ring : Memory 64) (n : Nat) : List Nat :=
  (List.range n).filter fun k => acceptsPeriod minFreq maxFreq (pairPeriod ring k)

/-- The scan sums and counts the accepted pairs. -/
theorem scanPairs_eq (minFreq maxFreq : Reg32) (ring : Memory 64) (n : Nat) :
    scanPairs minFreq maxFreq ring n =
      ⟨((acceptedPairs minFreq maxFreq ring n).map (pairPeriod ring)).sum,
        (acceptedPairs minFreq maxFreq ring n).length⟩ := by
  induction n with
  | zero => rfl
  | succ n ih =>
    rw [scanPairs, ih, Tally.addPeriod, acceptedPairs, acceptedPairs, List.range_succ, List.filter_append]
    split
    · next haccepted => simp [haccepted]
    · next hrejected => simp [hrejected]

theorem scanRing_eq (s : State) :
    scanRing s =
      ⟨((acceptedPairs s.fc.minFreq s.fc.maxFreq s.fc.ring (s.params.ringCap / 2)).map (pairPeriod s.fc.ring)).sum,
        (acceptedPairs s.fc.minFreq s.fc.maxFreq s.fc.ring (s.params.ringCap / 2)).length⟩ :=
  scanPairs_eq ..

theorem acceptsPeriod_of_mem_acceptedPairs {k : Nat} (h : k ∈ acceptedPairs minFreq maxFreq ring n) :
    acceptsPeriod minFreq maxFreq (pairPeriod ring k) = true := (List.mem_filter.mp h).2

/-- With no pair accepted from the `m`-th on, at most `m` are. -/
theorem acceptedPairs_length_le {m : Nat}
    (h : ∀ k, m ≤ k → k < n → acceptsPeriod minFreq maxFreq (pairPeriod ring k) = false) :
    (acceptedPairs minFreq maxFreq ring n).length ≤ m := by
  have hsubset : acceptedPairs minFreq maxFreq ring n ⊆ List.range m := fun k hk => by
    obtain ⟨hrange, haccepted⟩ := List.mem_filter.mp hk
    refine List.mem_range.mpr (Nat.lt_of_not_le fun hm => ?_)
    exact absurd ((h k hm (List.mem_range.mp hrange)).symm.trans haccepted) nofun
  have hnodup : (acceptedPairs minFreq maxFreq ring n).Nodup := List.nodup_range.filter _
  simpa using hnodup.length_le_of_subset hsubset

theorem acceptsPeriod_zero (minFreq maxFreq : Reg32) : acceptsPeriod minFreq maxFreq 0 = false := rfl

/-! ### The result of FC.READ (R150 to R152) -/

/-- Settles O24: each accepted period is at least 1. -/
theorem averageIsNeverZero : Obligations.AverageIsNeverZero := fun s =>
  ⟨scanPairs_cnt_le_sum .., scanRing_mean_ne_zero s⟩

/-- The answer of a read, with the branch of a zero mean gone (90_conflicts.md C5). -/
theorem tallyAnswer_scanRing (s : State) (fails : Bool) :
    tallyAnswer s.params (scanRing s) fails =
      if (scanRing s).cnt ≤ gateThr s.params then ⟨.fc, .okEmpty, []⟩
      else deliveryAnswer .fc (fcText (hertz ((scanRing s).sum / (scanRing s).cnt))) fails := by
  split
  · next hle => exact tallyAnswer_of_cnt_le_gateThr fails hle
  · next hgt =>
    have hlt := Nat.lt_of_not_le hgt
    exact tallyAnswer_of_gateThr_lt_cnt fails hlt (scanRing_mean_ne_zero s (Nat.zero_lt_of_lt hlt))

/-- Settles O22: the filter written out accepts the pairs of the scan. -/
theorem fcReadReportsFrequencyOfMeanPeriod : Obligations.FcReadReportsFrequencyOfMeanPeriod := by
  intro s env now hpresent hnow period accepted sum
  have haccepted : accepted = acceptedPairs s.fc.minFreq s.fc.maxFreq s.fc.ring (s.params.ringCap / 2) :=
    List.filter_congr fun k _ => Bool.eq_iff_iff.mpr (decide_eq_true_iff.trans (acceptsPeriod_iff ..).symm)
  have hscan : scanRing s = ⟨sum, accepted.length⟩ := by
    rw [scanRing_eq, ← haccepted]
    rfl
  refine ⟨_, exec_fcRead hpresent hnow, congrArg some ?_⟩
  rw [tallyAnswer_scanRing, hscan]
  rfl

/-- A read whose accepted pairs do not pass the gate is empty. -/
theorem exec_fcRead_empty (hpresent : s.fc.present = true) (hnow : TimeForward now s) {m : Nat}
    (hgate : m ≤ gateThr s.params)
    (h : ∀ k, m ≤ k → k < s.params.ringCap / 2 →
      acceptsPeriod s.fc.minFreq s.fc.maxFreq (pairPeriod s.fc.ring k) = false) :
    ∃ t, exec (.fcRead env now) s = .next t ∧ t.response = some ⟨.fc, .okEmpty, []⟩ := by
  have hcnt : (scanRing s).cnt ≤ gateThr s.params := by
    rw [scanRing_eq]
    exact (acceptedPairs_length_le h).trans hgate
  exact ⟨_, exec_fcRead hpresent hnow, congrArg some (tallyAnswer_of_cnt_le_gateThr _ hcnt)⟩

/-- Settles O28: no pair is accepted. -/
theorem outOfRangePairsReadEmpty : Obligations.OutOfRangePairsReadEmpty := by
  intro s env now hpresent hnow houtside
  refine exec_fcRead_empty hpresent hnow (Nat.zero_le _) fun k _ hk => Bool.eq_false_iff.mpr fun haccepted => ?_
  obtain ⟨hzero, hmin, hmax⟩ := (acceptsPeriod_iff ..).mp haccepted
  rcases houtside k hk with hperiod | hslow | hfast
  · exact hzero hperiod
  · exact Nat.not_lt.mpr hmin hslow
  · exact Nat.not_lt.mpr hmax hfast

theorem pairPeriod_eq_zero {k : Nat} (heven : Memory.read ring (2 * k) = 0#64)
    (hodd : Memory.read ring (2 * k + 1) = 0#64) : pairPeriod ring k = 0 := by
  simp [pairPeriod, heven, hodd]

/-- Settles O29: from pair 32 on the period is 0, and 32 pairs do not pass the gate. -/
theorem sixtyFourSamplesReadEmpty : Obligations.SixtyFourSamplesReadEmpty := by
  intro s env now hpresent hnow hparams hzero
  have hgate : 32 ≤ gateThr s.params := by simp [hparams, gateThr, pairs, Params.default]
  refine exec_fcRead_empty hpresent hnow hgate fun k hk _ => ?_
  rw [pairPeriod_eq_zero (hzero _ (by omega)) (hzero _ (by omega)), acceptsPeriod_zero]

/-! ### The mean lies where the periods lie (R153 items 1 and 2) -/

theorem le_mean {l : List Nat} {lo : Nat} (hl : l ≠ []) (h : ∀ p ∈ l, lo ≤ p) : lo ≤ l.sum / l.length := by
  have hsum := List.card_nsmul_le_sum l lo h
  rw [smul_eq_mul, Nat.mul_comm] at hsum
  exact (Nat.le_div_iff_mul_le (List.length_pos_iff.mpr hl)).mpr hsum

theorem mean_le {l : List Nat} {hi : Nat} (h : ∀ p ∈ l, p ≤ hi) : l.sum / l.length ≤ hi := by
  have hsum := List.sum_le_card_nsmul l hi h
  rw [smul_eq_mul] at hsum
  exact Nat.div_le_of_le_mul hsum

/-- The frequency of the mean of accepted periods is in the window, since the window is a range of periods. -/
theorem hertz_mean_in_window {l : List Nat} (hl : l ≠ []) (h : ∀ p ∈ l, acceptsPeriod minFreq maxFreq p = true) :
    minFreq.toNat ≤ hertz (l.sum / l.length) ∧ hertz (l.sum / l.length) ≤ maxFreq.toNat := by
  have haccepted (p) (hp : p ∈ l) := (acceptsPeriod_iff ..).mp (h p hp)
  have hmean : l.sum / l.length ≠ 0 :=
    Nat.pos_iff_ne_zero.mp (le_mean hl fun p hp => Nat.pos_of_ne_zero (haccepted p hp).1)
  constructor
  · rcases Nat.eq_zero_or_pos minFreq.toNat with hzero | hmin
    · exact hzero ▸ Nat.zero_le _
    · refine (le_hertz_iff hmin hmean).mpr (mean_le fun p hp => ?_)
      obtain ⟨hp0, hlow, -⟩ := haccepted p hp
      exact (le_hertz_iff hmin hp0).mp hlow
  · refine (hertz_le_iff hmean).mpr (le_mean hl fun p hp => ?_)
    obtain ⟨hp0, -, hhigh⟩ := haccepted p hp
    exact (hertz_le_iff hp0).mp hhigh

theorem scanRing_mean_in_window (s : State) (h : 0 < (scanRing s).cnt) :
    s.fc.minFreq.toNat ≤ hertz ((scanRing s).sum / (scanRing s).cnt) ∧
      hertz ((scanRing s).sum / (scanRing s).cnt) ≤ s.fc.maxFreq.toNat := by
  rw [scanRing_eq] at h ⊢
  have hwindow := hertz_mean_in_window (minFreq := s.fc.minFreq) (maxFreq := s.fc.maxFreq)
    (l := (acceptedPairs s.fc.minFreq s.fc.maxFreq s.fc.ring (s.params.ringCap / 2)).map (pairPeriod s.fc.ring))
    (List.length_pos_iff.mp (by simpa using h))
    fun p hp => by
      obtain ⟨k, hk, rfl⟩ := List.mem_map.mp hp
      exact acceptsPeriod_of_mem_acceptedPairs hk
  rwa [List.length_map] at hwindow

theorem deliveryAnswer_eq_data_iff {unit u : UnitId} {text text' : List Byte} {fails : Bool} :
    deliveryAnswer unit text fails = ⟨u, .okData, text'⟩ ↔ fails = false ∧ unit = u ∧ text = text' := by
  cases fails <;> simp [deliveryAnswer]

/-- Settles O26: data is answered past the gate, where some pair is accepted. -/
theorem reportedFrequencyInWindow : Obligations.ReportedFrequencyInWindow := by
  intro s t env now text h hdata
  have hanswer := Option.some.inj ((exec_next_response h).symm.trans hdata)
  rw [tallyAnswer_scanRing] at hanswer
  split at hanswer
  · cases hanswer
  · next hgate =>
    obtain ⟨-, -, rfl⟩ := deliveryAnswer_eq_data_iff.mp hanswer
    obtain ⟨hmin, hmax⟩ := scanRing_mean_in_window s (Nat.zero_lt_of_lt (Nat.lt_of_not_le hgate))
    exact ⟨_, rfl, hmin, hmax, Nat.div_le_self _ _⟩

/-! ### Between two reads (R153 item 3) -/

/-- Unit FC is up and every entry of its ring is 0. -/
def RingDrained (s : State) : Prop := s.fc.present = true ∧ ∀ k < s.params.ringCap, Memory.read s.fc.ring k = 0#64

theorem ringDrained_of_fcRead (h : exec (.fcRead env now) s = .next t) : RingDrained t := by
  obtain ⟨⟨hpresent, -⟩, -, rfl⟩ := exec_next_iff.mp h
  exact ⟨hpresent, fun k hk => (Memory.read_zeroBelow ..).trans (if_pos hk)⟩

/-- Only an edge writes an entry of a present unit's ring. -/
theorem exec_keeps_ringDrained (hedge : i.op ≠ 0x01#8) (h : exec i s = .next t) (hs : RingDrained s) :
    RingDrained t := by
  cases i with
  | fcEdge env now => exact absurd rfl hedge
  | fcRead env now => exact ringDrained_of_fcRead h
  | fcInit env now =>
    obtain ⟨⟨habsent, -⟩, -⟩ := exec_next_iff.mp h
    exact absurd (hs.1.symm.trans habsent) nofun
  | _ =>
    obtain ⟨-, -, rfl⟩ := exec_next_iff.mp h
    exact hs

/-- Settles O27: the first read drains the ring, nothing before the second fills it, and a period of 0 is not
accepted. -/
theorem secondReadIsEmpty : Obligations.SecondReadIsEmpty := by
  intro s t u ops env env' now now' hread hedges hops hnow
  obtain ⟨hpresent, hzero⟩ : RingDrained u :=
    runOps_keeps (fun i hi _ _ => exec_keeps_ringDrained (hedges i hi)) (ringDrained_of_fcRead hread) hops
  refine exec_fcRead_empty hpresent hnow (Nat.zero_le _) fun k _ hk => ?_
  rw [pairPeriod_eq_zero (hzero _ (by omega)) (hzero _ (by omega)), acceptsPeriod_zero]

end Sys2Proof.Machine
end

section
/-! 42_protocol_decoder.md: the start of a handshake, the listen window it opens, and the cooldown; 43_system_ops.md:
what `PD.INIT` leaves. -/

namespace Sys2Proof.Machine

variable {i : Instr} {env : Byte} {now : Time} {s t : State}

/-! ### PD.INIT (R214) -/

theorem latchedPd_of_inv (hs : Inv s) (habsent : s.pd.present = false) :
    latchedPd s = { s.pd with present := true, pin := s.inputs.pdPin } := by
  obtain ⟨-, -, -, -, hreset⟩ := hs
  rw [latchedPd, hreset habsent]
  rfl

/-- Settles O49: what INIT latches, and that the invariant has the rest in place. -/
theorem pdInitLatchesConfiguration : Obligations.PdInitLatchesConfiguration := by
  intro s env now habsent hnow henv
  refine ⟨_, exec_pdInit_of_no_fault habsent hnow henv, fun j hj => ?frame, fun j hj => ?beyond, rfl,
    fun hs => (latchedPd_of_inv hs habsent : latchedPd s = _)⟩
  case frame => exact (Memory.read_zeroBelow ..).trans (if_pos hj)
  case beyond => exact (Memory.read_zeroBelow ..).trans (if_neg (Nat.not_lt.mpr hj))

/-! ### PD.READ and PD.REQ_DONE (R173 to R178) -/

theorem exec_pdRead_start (hpresent : s.pd.present = true) (hidle : s.pd.phase = .idle) (hnow : TimeForward now s)
    (hcooldown : s.pd.cooldown = false) :
    exec (.pdRead env now) s = .next
      { s with lastNow := now, response := none, pd := requestingPd now s.pd } := by
  refine (execPdRead_next_iff (env := env)).mpr ⟨hnow, ⟨hpresent, hidle⟩, ?_⟩
  rw [hcooldown]
  rfl

/-- Settles O32: of the two arms of an enabled read, the one without the cooldown. -/
theorem pdReadStartsHandshake : Obligations.PdReadStartsHandshake := fun _ _ _ => exec_pdRead_start

/-- Settles O33: the window that opens has five bytes zeroed and the counter cleared. -/
theorem pdReqDoneOpensWindow : Obligations.PdReqDoneOpensWindow := by
  intro s env now hpresent hphase hnow hmin hmax
  have hdelay := (delayWithin_iff_elapsed ..).mp ((delayWithin_iff ..).mpr ⟨hmin, hmax⟩)
  refine ⟨_, exec_of_enabled ⟨⟨hpresent, hphase, hdelay⟩, hnow⟩ trivial, fun j hj => ?frame, fun j hj => ?beyond, rfl⟩
  case frame => exact (Memory.read_zeroBelow ..).trans (if_pos hj)
  case beyond => exact (Memory.read_zeroBelow ..).trans (if_neg (Nat.not_lt.mpr hj))

/-- Settles O11: the gate names the phase it found. -/
theorem secondReadInFlightRefused : Obligations.SecondReadInFlightRefused := by
  intro s env now hpresent hphase hnow
  have hgate : pdPhaseGate .idle s = some (.wrongPhase s.pd.phase) := (if_pos hpresent).trans (if_neg hphase)
  exact exec_refused_of_gate hnow hgate

/-! ### The cooldown (R174, R193 item 2) -/

theorem pd_present_of_cooldown (hs : Inv s) (hcooldown : s.pd.cooldown = true) : s.pd.present = true := by
  obtain ⟨-, -, -, -, hreset⟩ := hs
  refine Bool.eq_true_of_not_eq_false fun habsent => ?_
  rw [hreset habsent] at hcooldown
  cases hcooldown

theorem phase_idle_of_cooldown (hs : Inv s) (hcooldown : s.pd.cooldown = true) : s.pd.phase = .idle := by
  obtain ⟨-, -, ⟨-, -, -, hidle, -⟩, -⟩ := hs
  exact hidle hcooldown

/-- Only a read clears the cooldown: INIT finds no unit that has it. -/
theorem exec_keeps_cooldown (hs : Inv s) (hcooldown : s.pd.cooldown = true) (h : exec i s = .next t)
    (hread : ∀ env now, i ≠ .pdRead env now) : t.pd.cooldown = true := by
  obtain ⟨⟨hready, -⟩, -, rfl⟩ := exec_next_iff.mp h
  cases i with
  | pdInit env now => exact absurd ((pd_present_of_cooldown hs hcooldown).symm.trans hready) nofun
  | pdEdge env now => simp only [after, pdAfter]; split <;> exact hcooldown
  | pdRead env now => exact absurd rfl (hread env now)
  | pdListenDone env now => simp only [after, pdAfter, closedPd, hcooldown, ite_self]
  | _ => exact hcooldown

/-- Settles O42: the read that finds the cooldown clears it, so the one after starts a handshake. -/
theorem successThenExactlyOneEmptyRead : Obligations.SuccessThenExactlyOneEmptyRead := by
  refine ⟨fun i s t => exec_keeps_cooldown, fun s env env' now now' hs hcooldown hnow hlater => ?_⟩
  have hpresent := pd_present_of_cooldown hs hcooldown
  have hidle := phase_idle_of_cooldown hs hcooldown
  exact ⟨_, _, pdReadConsumesCooldown s env now hpresent hidle hnow hcooldown, rfl,
    exec_pdRead_start hpresent hidle hlater rfl, rfl, rfl⟩

end Sys2Proof.Machine
end

section
/-! 42_protocol_decoder.md R193, 70_reset_and_hazards.md "Blocking": runs of operations through a handshake. -/

namespace Sys2Proof.Machine

variable {i : Instr} {ops : List Instr} {env : Byte} {now since : Time} {s t u : State} {p : Phase} {ts us : List Time}

/-! ### The phases of a handshake and their times (R170, R193) -/

/-- The sequencer has been in a phase since a time, under given parameters. -/
def InPhase (p : Phase) (since : Time) (params : Params) (s : State) : Prop :=
  s.pd.present = true ∧ s.pd.phase = p ∧ s.pd.tPhase = since ∧ s.params = params

theorem exec_keeps_phase_of_op (h : exec i s = .next t) (hop : i.op ∉ [0x10#8, 0x12#8, 0x14#8, 0x15#8]) :
    t.pd.phase = s.pd.phase ∧ t.pd.tPhase = s.pd.tPhase := by
  obtain ⟨-, -, rfl⟩ := exec_next_iff.mp h
  cases i with
  | pdInit env now | pdRead env now | pdReqDone env now | pdListenDone env now => simp [Instr.op] at hop
  | pdEdge env now => simp only [after, pdAfter]; split <;> exact ⟨rfl, rfl⟩
  | _ => exact ⟨rfl, rfl⟩

/-- Only the operation that ends it moves a handshake out of its phase: INIT and a second read are refused. -/
theorem exec_keeps_inPhase {params : Params} (h : exec i s = .next t) (hs : InPhase p since params s) (hp : p ≠ .idle)
    (hreq : p = .requesting → i.op ≠ 0x14#8) (hlisten : p = .listening → i.op ≠ 0x15#8) : InPhase p since params t := by
  obtain ⟨hpresent, rfl, rfl, rfl⟩ := hs
  obtain ⟨⟨hready, -⟩, -, heq⟩ := exec_next_iff.mp h
  have hop : i.op ∉ [0x10#8, 0x12#8, 0x14#8, 0x15#8] := by
    cases i with
    | pdInit env now => exact absurd (hpresent.symm.trans hready) nofun
    | pdRead env now => exact absurd (idle_of_ready hready) hp
    | pdReqDone env now => exact absurd rfl (hreq (requesting_of_ready hready))
    | pdListenDone env now => exact absurd rfl (hlisten (listening_of_ready hready))
    | _ => simp [Instr.op]
  obtain ⟨hphase, htime⟩ := exec_keeps_phase_of_op h hop
  exact ⟨heq ▸ (pdAfter_of_present hready hpresent).1, hphase, htime, heq ▸ rfl⟩

/-- Settles O46: the request pulse and the window each last between their bounds, and start where the one before
ends. -/
theorem handshakeDurationBounded : Obligations.HandshakeDurationBounded := by
  refine ⟨fun s a a' b b' c during window e0 e1 e2 n0 n1 n2 hcooldown hread hduring hrunDuring hreqDone hwindow
    hrunWindow hlistenDone => ?_, fun i s t => exec_keeps_phase_of_op⟩
  have ha : InPhase .requesting n0 s.params a := by
    obtain ⟨⟨⟨hpresent, -⟩, -⟩, -, rfl⟩ := exec_next_iff.mp hread
    simp [InPhase, after, pdAfter, hcooldown, requestingPd, hpresent]
  obtain ⟨-, -, hsince, hparams⟩ : InPhase .requesting n0 s.params a' :=
    runOps_keeps (fun i hi _ _ h hs => exec_keeps_inPhase h hs nofun (fun _ => hduring i hi) nofun) ha hrunDuring
  obtain ⟨⟨⟨hpresent, -, hpulse⟩, -⟩, -, rfl⟩ := exec_next_iff.mp hreqDone
  have hb : InPhase .listening n1 a'.params (after (.pdReqDone e1 n1) a') := ⟨hpresent, rfl, rfl, rfl⟩
  obtain ⟨-, -, hsince', hparams'⟩ : InPhase .listening n1 a'.params b' :=
    runOps_keeps (fun i hi _ _ h hs => exec_keeps_inPhase h hs nofun nofun fun _ => hwindow i hi) hb hrunWindow
  obtain ⟨⟨⟨-, -, hlisten⟩, -⟩, -⟩ := exec_next_iff.mp hlistenDone
  rw [hsince, hparams] at hpulse
  rw [hsince', hparams', hparams] at hlisten
  omega

/-! ### Data and valid frames; reads in flight (R193 items 3 and 5) -/

theorem frameValid_of_frameAnswer_data {text : List Byte} {fails : Bool} {unit : UnitId}
    (h : frameAnswer s fails = ⟨unit, .okData, text⟩) : frameValid s = true := by
  unfold frameAnswer at h
  split at h
  · assumption
  · cases h

/-- Of the operations of unit PD, only the end of a window answers data. -/
theorem eq_pdListenDone_of_data (hunit : unitOf i = .pd) (hdata : .okData ∈ statusesOf i) :
    ∃ env now, i = .pdListenDone env now := by
  cases i with
  | pdListenDone env now => exact ⟨env, now, rfl⟩
  | fcInit env now | fcEdge env now | fcRead env now | fcWrite env now => cases hunit
  | _ => simp [statusesOf] at hdata

/-- One operation starts as many reads as it answers or leaves in flight. -/
theorem readsInFlight_balance (hs : Inv s) (h : exec i s = .next t) :
    readsInFlight s + (if startsRead i t then 1 else 0) = (if answersRead i t then 1 else 0) + readsInFlight t := by
  obtain ⟨⟨hready, -⟩, -⟩ := exec_next_iff.mp h
  have hphase := exec_next_phase h
  have hresponse := exec_next_response h
  cases i with
  | pdRead env now =>
    cases hcooldown : s.pd.cooldown <;>
      simp [readsInFlight, startsRead, answersRead, Instr.op, hphase, phaseAfter, hresponse, responseAfter, hcooldown,
        idle_of_ready hready]
  | pdReqDone env now =>
    simp [readsInFlight, startsRead, answersRead, Instr.op, hphase, phaseAfter, requesting_of_ready hready]
  | pdListenDone env now =>
    simp [readsInFlight, startsRead, answersRead, Instr.op, hphase, phaseAfter, hresponse, responseAfter,
      listening_of_ready hready]
  | pdInit env now =>
    rw [phaseAfter_pdInit hs h] at hphase
    simp [readsInFlight, startsRead, answersRead, Instr.op, hphase]
  | _ => simp [readsInFlight, startsRead, answersRead, Instr.op, hphase, phaseAfter]

theorem runOps_balance (hs : Inv s) (h : runOps ops s = some t) :
    readsInFlight s + countOps startsRead ops s = countOps answersRead ops s + readsInFlight t := by
  induction ops generalizing s with
  | nil => simp [Option.some.inj h]
  | cons i ops ih =>
    obtain ⟨u, hu, hrest⟩ := runOps_cons_some.mp h
    have hone := readsInFlight_balance hs hu
    have hothers := ih (exec_keeps_inv hs hu) hrest
    rw [countOps_cons hu, countOps_cons hu]
    omega

/-- Settles O45: the record of a window's end carries text only for a valid frame; the balance of one operation adds up
along a run. -/
theorem dataFromValidFramesAndOneReadInFlight : Obligations.DataFromValidFramesAndOneReadInFlight := by
  refine ⟨fun i s t text h hdata => ?_, fun ops s t hs h => ⟨runOps_balance hs h, readsInFlight_le_one⟩⟩
  obtain ⟨hunit, -, hstatus⟩ := exec_next_meets h hdata
  obtain ⟨env, now, rfl⟩ := eq_pdListenDone_of_data hunit.symm hstatus
  have hanswer := Option.some.inj ((exec_next_response h).symm.trans hdata)
  obtain ⟨hec, hsum⟩ := frameValid_iff.mp (frameValid_of_frameAnswer_data hanswer)
  exact ⟨⟨env, now, rfl⟩, hec, of_decide_eq_true hsum⟩

/-! ### A listen window, edge by edge (R193 items 1 and 4) -/

/-- The bit that the edges at the given times spell at position `n` of the frame. -/
def spelledBit (ts : List Time) (n : Nat) : Bool :=
  decide (n + 2 < ts.length ∧ 100 < (ts.getD (n + 2) 0 - ts.getD (n + 1) 0).toNat / 1000)

/-- The state `t` stands in the listen window that was open in `s`, after edges at the given times. -/
structure InWindow (s : State) (ts : List Time) (t : State) : Prop where
  inPhase : InPhase .listening s.pd.tPhase s.params t
  delivered : t.pd.irqEn = true
  counted : t.pd.ec = ts.length
  marked : ∀ k, ts.length = k + 1 → t.pd.prev = ts.getD k 0
  bits : ∀ n < 40, frameBitAt t.pd.frame n = (frameBitAt s.pd.frame n || spelledBit ts n)
  beyond : ∀ j, 5 ≤ j → Memory.read t.pd.frame j = Memory.read s.pd.frame j

theorem inWindow_nil (hpresent : s.pd.present = true) (hphase : s.pd.phase = .listening) (hirq : s.pd.irqEn = true)
    (hec : s.pd.ec = 0) : InWindow s [] s where
  inPhase := ⟨hpresent, hphase, rfl, rfl⟩
  delivered := hirq
  counted := hec
  marked := nofun
  bits := by simp [spelledBit]
  beyond := fun _ _ => rfl

/-- One more edge spells its own bit, by its distance from the edge before. -/
theorem spelledBit_append (ts : List Time) (now prev : Time) (n : Nat)
    (hprev : ∀ k, ts.length = k + 1 → prev = ts.getD k 0) :
    spelledBit (ts ++ [now]) n =
      (spelledBit ts n || decide (ts.length = n + 2 ∧ 100 < (now - prev).toNat / 1000)) := by
  have hbefore {k : Nat} (hk : k < ts.length) : (ts ++ [now]).getD k 0 = ts.getD k 0 := List.getD_append _ _ _ _ hk
  simp only [spelledBit, List.length_append, List.length_singleton]
  rcases Nat.lt_trichotomy (n + 2) ts.length with hearlier | hown | hlater
  · have hlt : n + 2 < ts.length + 1 := by omega
    rw [hbefore hearlier, hbefore (Nat.lt_of_succ_lt hearlier)]
    simp [hearlier, hlt, hearlier.ne']
  · have hnow : (ts ++ [now]).getD (n + 2) 0 = now := by simp [hown]
    rw [hnow, hbefore (by omega), ← hprev (n + 1) hown.symm]
    simp [← hown]
  · have hnot : ¬ n + 2 < ts.length + 1 := by omega
    simp [hnot, hlater.not_gt, hlater.ne]

theorem inWindow_edge (hw : InWindow s ts t) (h : exec (.pdEdge env now) t = .next u) : InWindow s (ts ++ [now]) u := by
  have hphase := exec_keeps_inPhase h hw.inPhase nofun nofun fun _ => by simp [Instr.op]
  obtain ⟨-, -, rfl⟩ := exec_next_iff.mp h
  have hafter : (after (.pdEdge env now) t).pd = edgedPd now t.pd := if_pos hw.delivered
  constructor
  case inPhase => exact hphase
  all_goals rw [hafter]
  case delivered => exact hw.delivered
  case counted => simp [edgedPd, hw.counted]
  case marked =>
    intro k hk
    simp_all [edgedPd]
  case bits =>
    intro n hn
    rw [edgedPd, frameBitAt_frameAfterEdge _ _ hn, hw.bits n hn, spelledBit_append ts now _ n hw.marked, hw.counted,
      Bool.or_assoc]
  case beyond =>
    intro j hj
    exact (read_frameAfterEdge_beyond _ _ hj).trans (hw.beyond j hj)

/-- In a listen window only an edge and the operation that closes it touch unit PD. -/
theorem pd_unchanged_in_window (h : exec i t = .next u) (hphase : InPhase .listening since s.params t)
    (hedge : i.op ≠ 0x11#8) (hclose : i.op ≠ 0x15#8) : u.pd = t.pd := by
  obtain ⟨hpresent, hlistening, -, -⟩ := hphase
  obtain ⟨⟨hready, -⟩, -, rfl⟩ := exec_next_iff.mp h
  cases i with
  | pdInit env now => exact absurd (hpresent.symm.trans hready) nofun
  | pdEdge env now => exact absurd rfl hedge
  | pdRead env now => exact absurd (hlistening.symm.trans (idle_of_ready hready)) nofun
  | pdReqDone env now => exact absurd (hlistening.symm.trans (requesting_of_ready hready)) nofun
  | pdListenDone env now => exact absurd rfl hclose
  | _ => rfl

theorem inWindow_other (hw : InWindow s ts t) (h : exec i t = .next u) (hedge : i.op ≠ 0x11#8)
    (hclose : i.op ≠ 0x15#8) : InWindow s ts u := by
  have hpd := pd_unchanged_in_window h hw.inPhase hedge hclose
  have hphase := exec_keeps_inPhase h hw.inPhase nofun nofun fun _ => hclose
  obtain ⟨-, hdelivered, hcounted, hmarked, hbits, hbeyond⟩ := hw
  rw [← hpd] at hdelivered hcounted hmarked hbits hbeyond
  exact ⟨hphase, hdelivered, hcounted, hmarked, hbits, hbeyond⟩

theorem eq_pdEdge_of_op (h : i.op = 0x11#8) : ∃ env now, i = .pdEdge env now := by
  cases i with
  | pdEdge env now => exact ⟨env, now, rfl⟩
  | _ => simp [Instr.op] at h

/-- A run that does not close the window adds its edges to those before it. -/
theorem inWindow_runOps (hw : InWindow s ts t) (hclose : ∀ i ∈ ops, i.op ≠ 0x15#8) (h : runOps ops t = some u) :
    InWindow s (ts ++ edgeTimes ops) u := by
  induction ops generalizing ts t with
  | nil =>
    obtain rfl := Option.some.inj h
    simpa using hw
  | cons i ops ih =>
    obtain ⟨v, hv, hrest⟩ := runOps_cons_some.mp h
    obtain ⟨hfirst, hothers⟩ := List.forall_mem_cons.mp hclose
    by_cases hedge : i.op = 0x11#8
    · obtain ⟨env, now, rfl⟩ := eq_pdEdge_of_op hedge
      rw [edgeTimes_cons_edge, List.append_cons]
      exact ih (inWindow_edge hw hv) hothers hrest
    · rw [edgeTimes_cons_other hedge]
      exact ih (inWindow_other hw hv hedge hfirst) hothers hrest

/-! ### What a window's end answers depends on (R193 item 4) -/

theorem spelledBit_congr (h : SameBitDeltas ts us) {n : Nat} (hn : n < 40) : spelledBit ts n = spelledBit us n := by
  obtain ⟨hlength, hdeltas⟩ := h
  by_cases hlt : n + 2 < ts.length
  · have hdelta : ts.getD (n + 2) 0 - ts.getD (n + 1) 0 = us.getD (n + 2) 0 - us.getD (n + 1) 0 :=
      hdeltas (n + 2) (by omega) (by omega) hlt
    rw [spelledBit, spelledBit, hdelta, hlength]
  · simp [spelledBit, hlt, hlength ▸ hlt]

/-- Windows with the same spelled bits and the same count hold the same frame buffer. -/
theorem read_eq_of_inWindow (ht : InWindow s ts t) (hu : InWindow s us u) (hsame : SameBitDeltas ts us) (j : Nat) :
    Memory.read t.pd.frame j = Memory.read u.pd.frame j := by
  by_cases hj : j < 5
  · refine bytes_eq_of_bits_eq (fun n hn => ?_) hj
    exact (ht.bits n hn).trans ((spelledBit_congr hsame hn).symm ▸ (hu.bits n hn).symm)
  · have hbeyond := Nat.not_lt.mp hj
    exact (ht.beyond j hbeyond).trans (hu.beyond j hbeyond).symm

theorem frameAnswer_congr (hec : s.pd.ec = t.pd.ec) (hframe : ∀ j, Memory.read s.pd.frame j = Memory.read t.pd.frame j)
    (fails : Bool) : frameAnswer s fails = frameAnswer t fails := by
  have hload : loadFrame s.pd.frame = loadFrame t.pd.frame := by simp only [loadFrame, hframe]
  have hvalid : frameValid s = frameValid t := by rw [Bool.eq_iff_iff, frameValid_iff, frameValid_iff, hec, hload]
  simp only [frameAnswer, hvalid, hload]

theorem frameAnswer_of_ec_ne (hec : s.pd.ec ≠ 42) (fails : Bool) : frameAnswer s fails = ⟨.pd, .errIo, []⟩ :=
  if_neg fun hvalid => hec (frameValid_iff.mp hvalid).1

/-- Settles O44: both runs stand in the window of `s`, with the same bits spelled and the same count. -/
theorem resultDependsOnBitDeltasOnly : Obligations.ResultDependsOnBitDeltasOnly := by
  intro s t t' ops ops' env now now' hpresent hphase hirq hec hclose hclose' hrun hrun' hsame henabled henabled'
  have hopen := inWindow_nil hpresent hphase hirq hec
  have ht : InWindow s (edgeTimes ops) t := inWindow_runOps hopen hclose hrun
  have ht' : InWindow s (edgeTimes ops') t' := inWindow_runOps hopen hclose' hrun'
  have hframe := read_eq_of_inWindow ht ht' hsame
  have hcount : t.pd.ec = t'.pd.ec := ht.counted.trans (hsame.1.trans ht'.counted.symm)
  refine ⟨hframe, ht.counted, hcount.symm, _, _, exec_of_enabled henabled trivial, exec_of_enabled henabled' trivial,
    congrArg some (frameAnswer_congr hcount hframe _), fun hmany => congrArg some (frameAnswer_of_ec_ne ?_ _)⟩
  have := ht.counted
  omega

/-! ### The round trip (R193 item 1) -/

/-- Edges in time are all accepted by a present unit. -/
theorem runOps_edges (hpresent : s.pd.present = true) {later : List Nat}
    (hsorted : (s.lastNow.toNat :: ts.map BitVec.toNat ++ later).Pairwise (· ≤ ·)) :
    ∃ t, runOps (ts.map fun now => .pdEdge 0 now) s = some t ∧ (t.lastNow.toNat :: later).Pairwise (· ≤ ·) := by
  induction ts generalizing s with
  | nil => exact ⟨s, rfl, hsorted⟩
  | cons now ts ih =>
    obtain ⟨hfirst, hrest⟩ := List.pairwise_cons.mp hsorted
    have hready : UnitReady (.pdEdge 0 now) s := hpresent
    have hexec := exec_of_enabled (i := .pdEdge 0 now) ⟨hready, hfirst now.toNat (by simp)⟩ trivial
    obtain ⟨t, hrun, hlater⟩ := ih (s := after (.pdEdge 0 now) s) (pdAfter_of_present hready hpresent).1 hrest
    exact ⟨t, runOps_cons_some.mpr ⟨_, hexec, hrun⟩, hlater⟩

theorem frameBitAt_of_zero {m : Memory 8} (hzero : ∀ j < 5, Memory.read m j = 0#8) {n : Nat} (hn : n < 40) :
    frameBitAt m n = false := by
  rw [frameBitAt, hzero (n / 8) (by omega), BitVec.getLsbD_zero]

/-- Between times in order the delta is the difference. -/
theorem spelledBit_iff_of_sorted (hsorted : (ts.map BitVec.toNat).Pairwise (· ≤ ·)) {n : Nat} (hn : n + 2 < ts.length) :
    spelledBit ts n = true ↔ 100 < ((ts.getD (n + 2) 0).toNat - (ts.getD (n + 1) 0).toNat) / 1000 := by
  have hle : ts.getD (n + 1) 0 ≤ ts.getD (n + 2) 0 := by
    have hpair := List.pairwise_iff_getElem.mp hsorted (n + 1) (n + 2) (by simp; omega) (by simpa) (by omega)
    simpa [BitVec.le_def, List.getD_eq_getElem, hn, Nat.lt_of_succ_lt hn] using hpair
  rw [spelledBit, decide_eq_true_iff, and_iff_right hn, BitVec.toNat_sub_of_le hle]

theorem edgeTimes_map_pdEdge (env : Byte) (ts : List Time) :
    edgeTimes (ts.map fun now => .pdEdge env now) = ts := by
  induction ts with
  | nil => rfl
  | cons now ts ih => rw [List.map_cons, edgeTimes_cons_edge, ih]

/-- Settles O43: the forty spelled bits are the frame's, and the window that holds a valid frame of 42 edges answers
it and sets the cooldown. -/
theorem frameRoundTrip : Obligations.FrameRoundTrip := by
  intro s f ts close reread hpresent hphase hirq hec hzero hlength hsorted hspells hsum hmin hmax
  obtain ⟨w, hedges, hlater⟩ := runOps_edges hpresent hsorted
  have hwindow : InWindow s ts w := by
    have hrun := inWindow_runOps (inWindow_nil hpresent hphase hirq hec) (by simp [Instr.op]) hedges
    rwa [edgeTimes_map_pdEdge] at hrun
  obtain ⟨hpresent', hphase', hsince, hparams⟩ := hwindow.inPhase
  have hts : (ts.map BitVec.toNat).Pairwise (· ≤ ·) := (List.pairwise_append.mp hsorted).1.of_cons
  have hframe : loadFrame w.pd.frame = f := loadFrame_eq_of_bits fun n hn => by
    rw [hwindow.bits n hn, frameBitAt_of_zero hzero hn, Bool.false_or, Bool.eq_iff_iff, hspells n hn,
      spelledBit_iff_of_sorted hts (by omega)]
  have hvalid : frameValid w = true :=
    frameValid_iff.mpr ⟨hwindow.counted.trans hlength, hframe ▸ decide_eq_true hsum⟩
  obtain ⟨hbefore, hrest⟩ := List.pairwise_cons.mp hlater
  have hclose : w.lastNow.toNat ≤ close.toNat := hbefore _ List.mem_cons_self
  have hnext : close.toNat ≤ reread.toNat := List.rel_of_pairwise_cons hrest List.mem_cons_self
  rw [← hsince, ← hparams] at hmin hmax
  have hdone := exec_pdListenDone (env := 0) hpresent' hphase' hclose hmin hmax
  have hread := pdReadConsumesCooldown (afterListenDone 0 close w) 0 reread hpresent' rfl hnext (if_pos hvalid)
  refine ⟨_, _, runOps_append_some.mpr ⟨w, hedges, runOps_cons_some.mpr ⟨_, hdone, rfl⟩⟩, hframe, ?_, hread, rfl⟩
  have htext : frameAnswer w false = ⟨.pd, .okData, pdText f.humidity f.temperature⟩ := by
    rw [frameAnswer, if_pos hvalid, hframe]
    rfl
  exact congrArg some htext

end Sys2Proof.Machine
end
